-- ==== Sys2Proof/Word.lean ====
section
/-! DEFINITION. The word types of the block: 16-bit registers (R9), bytes on both memory ports and 4-bit pixels (R10). -/

namespace Sys2Proof

/-- A host-visible register, 16 bits (R9). -/
abbrev Word := BitVec 16

/-- A byte of the source or of the surface (R10). -/
abbrev Byte := BitVec 8

/-- A 4-bit colour: one destination pixel (R5, R37). -/
abbrev Nibble := BitVec 4

end Sys2Proof
end

