-- ==== Sys2Proof/Syntax.lean ====
section
/-! DEFINITION. The instructions of spec/opcode_table.json and the two forms of word they are written in (R54 to R60). -/

namespace Sys2Proof

/-- One constructor per row of spec/opcode_table.json. An `offset` is a byte offset into the register window (R14). -/
inductive Instr where
  /-- `DRAW_BILEVEL` (R85): the command word 0x0001 written to `CMD`. -/
  | drawBilevel
  /-- `DRAW_MULTILEVEL` (R91): the command word 0x0002, or 0x0006 when mirrored, written to `CMD`. -/
  | drawMultilevel (invx : Bool)
  /-- `wr REG, imm16` (R60): a 16-bit register write. -/
  | wr (offset : Nat) (imm : Word)
  /-- `rd REG` (R60): a 16-bit register read whose value is recorded. -/
  | rd (offset : Nat)
  /-- `wait` (R60): `STATUS` is read again and again until `BUSY = 0`. -/
  | wait
  deriving DecidableEq, Repr

/-- What a host hands to the block: a value for `CMD` (R55), or a word of the host stream (R60). -/
inductive HostWord where
  /-- A 16-bit command word, written to `CMD` (format CMD of the opcode table). -/
  | command (v : Word)
  /-- A 32-bit host access stream word (format HOST of the opcode table). -/
  | stream (w : BitVec 32)
  deriving DecidableEq, Repr

end Sys2Proof
end

