-- ==== Sys2Proof/WellFormed.lean ====
section
/-! DEFINITION. The instructions the block's format can carry: a register offset is "even, 0x00 to 0x1E" (R54). -/

namespace Sys2Proof

/-- An offset of the register window: even, 0x00 to 0x1E (R14, R54). -/
def offsetWellFormed (offset : Nat) : Bool :=
  offset % 2 == 0 && decide (offset ≤ 0x1E)

/-- The offset check of R54, made for the two instructions that carry an offset. -/
def Instr.wellFormed : Instr → Bool
  | .drawBilevel => true
  | .drawMultilevel _ => true
  | .wr offset _ => offsetWellFormed offset
  | .rd offset => offsetWellFormed offset
  | .wait => true

end Sys2Proof
end

