-- ==== Sys2Proof/Decode.lean ====
section
/-! DEFINITION. Decoding of command words (R55, R57, R58) and host stream words (R60), total and rejecting by name, and
the encoder written from the same tables. -/

namespace Sys2Proof

/-- Why a word is no instruction. -/
inductive DecodeReject where
  /-- A `CMD` value other than 0x0001, 0x0002 and 0x0006 (R58). The step takes the rejection `E_BAD_OP` (R100). -/
  | reservedCommand (v : Word)
  /-- A stream word with a bit of 14:5 set: "bits 14:5 are 0" (R60). -/
  | reservedStreamBits (w : BitVec 32)
  /-- A stream word with the poll flag that is not the word of `wait` (R60). -/
  | pollFlag (w : BitVec 32)
  /-- A stream word of a read with data in bits 31:16: the row `rd` fixes them at 0. -/
  | dataOnRead (w : BitVec 32)
  deriving DecidableEq, Repr

/-- The stream word of `wait` (R60): `rd STATUS` with bit 15 set. -/
def waitWord : BitVec 32 := 0x00008002#32

/-- The decoder test of R57 for a command word. -/
def decodeCommand (v : Word) : Except DecodeReject Instr :=
  if v = 0x0001#16 then .ok .drawBilevel
  else if v &&& 0xFFFB#16 = 0x0002#16 then .ok (.drawMultilevel (v.getLsbD 2))
  else .error (.reservedCommand v)

/-- The register offset of a stream word: bits 4:1 are `offset >> 1` (R60). -/
def streamOffset (w : BitVec 32) : Nat := 2 * (w.extractLsb' 1 4).toNat

/-- The host stream word of R60. -/
def decodeStream (w : BitVec 32) : Except DecodeReject Instr :=
  if w = waitWord then .ok .wait
  else if w.extractLsb' 5 10 ≠ 0#10 then .error (.reservedStreamBits w)
  else if w.getLsbD 15 then .error (.pollFlag w)
  else if w.getLsbD 0 then .ok (.wr (streamOffset w) (w.extractLsb' 16 16))
  else if w.extractLsb' 16 16 ≠ 0#16 then .error (.dataOnRead w)
  else .ok (.rd (streamOffset w))

/-- The decoder over both forms of word. -/
def decode : HostWord → Except DecodeReject Instr
  | .command v => decodeCommand v
  | .stream w => decodeStream w

/-- The command word of a draw (R57): `OP` in bits 1:0 and `INVX` in bit 2 (R55). -/
def multilevelCommand (invx : Bool) : Word := if invx then 0x0006#16 else 0x0002#16

/-- The stream word of a register write: `(imm16 << 16) | offset | 1` (R60). -/
def writeWord (offset : Nat) (imm : Word) : BitVec 32 := (imm ++ (BitVec.ofNat 16 offset ||| 1#16) : BitVec 32)

/-- The stream word of a register read: the offset (R60). -/
def readWord (offset : Nat) : BitVec 32 := BitVec.ofNat 32 offset

/-- The word of an instruction (R57, R60). -/
def encode : Instr → HostWord
  | .drawBilevel => .command 0x0001#16
  | .drawMultilevel invx => .command (multilevelCommand invx)
  | .wr offset imm => .stream (writeWord offset imm)
  | .rd offset => .stream (readWord offset)
  | .wait => .stream waitWord

/-- A word of `nbits` bits as the opcode table numbers them: 16-bit rows are command words, 32-bit rows are stream
words. No other length exists (R54, R59). -/
def tableWord (nbits w : Nat) : Option HostWord :=
  if nbits = 16 then some (.command (BitVec.ofNat 16 w))
  else if nbits = 32 then some (.stream (BitVec.ofNat 32 w))
  else none

/-- The instruction the decoder reads from a word of the opcode table. -/
def decodeTableWord (nbits w : Nat) : Option Instr :=
  match tableWord nbits w with
  | some hw => (decode hw).toOption
  | none => none

end Sys2Proof
end

