-- ==== Sys2Proof/Config.lean ====
section
/-! DEFINITION. What is fixed for a machine: the constants of R5, the parameters of R6 to R8, and the free values of the
surface and the source memory before anything is written (R38, R119). -/

namespace Sys2Proof.Config

/-- Screen width in pixels (R5). -/
abbrev screenW : Nat := 320

/-- Screen height in pixels (R5). -/
abbrev screenH : Nat := 200

/-- Interleaved banks (R5). -/
abbrev banks : Nat := 4

/-- Destination pixels per byte (R5). -/
abbrev pxPerByte : Nat := 2

/-- Bytes of a destination row (R5). -/
abbrev rowBytes : Nat := 160

/-- Rows held by one bank (R5). -/
abbrev rowsPerBank : Nat := 50

/-- FREE VALUE (log 2): the surface byte at an index at power-up. R119: "A model gives every surface byte an arbitrary
value at power-up, a free draw, and never zero by default." It has no body, so nothing can be proved of its value. -/
opaque surfaceAtPowerUp : Nat → Byte

/-- FREE VALUE (log 2): the source byte at an address before the run. R33: the source is "not part of the block". -/
opaque sourceAtPowerUp : Nat → Byte

/-- What the outside world left in a memory before the run (log 2). -/
inductive Fill where
  /-- Unspecified: one free draw per byte (R38, R119, I9). -/
  | free
  /-- Every byte holds `b`, as in the column "fill" of 95_test_vectors.md. -/
  | byte (b : Byte)
  deriving DecidableEq, Repr

/-- A part of the source space that the platform maps onto surface memory (R123): the `size` source addresses from
`source` up are the surface indices from `surface` up. -/
structure Window where
  source : Nat
  surface : Nat
  size : Nat
  deriving DecidableEq, Repr

/-- The parameters the model takes as arguments (R6, R7, R8), the platform's mapping of the source port (R120, R123), and
the two memories' contents before the run. No step changes them. -/
structure Platform where
  /-- `PAGE_SIZE`, the bytes of one bank (R6). -/
  pageSize : Nat
  /-- `TRANSPARENT`, the sentinel (R7). -/
  transparent : Word
  /-- `SRC_ADDR_W`, the width of a source address (R8). -/
  srcAddrW : Nat
  /-- The windows of the source space onto the surface (R123; log 10). -/
  windows : List Window
  /-- The surface before the run (R38). -/
  surfaceFill : Fill
  /-- The source memory before the run. -/
  sourceFill : Fill
  deriving DecidableEq, Repr

/-- The constraints of R6, R7 and R8 on the parameters, and windows that lie inside the two spaces of R34. -/
abbrev Platform.Legal (p : Platform) : Prop :=
  rowsPerBank * rowBytes ≤ p.pageSize ∧ 16 ≤ p.transparent.toNat ∧ 1 ≤ p.srcAddrW ∧ p.srcAddrW ≤ 32 ∧
  ∀ w ∈ p.windows, w.source + w.size ≤ 2 ^ p.srcAddrW ∧ w.surface + w.size ≤ banks * p.pageSize

/-- The platform of `State.reset` (log 1). PRESUMED (K1, K2), the spec's own defaults: `PAGE_SIZE = 8192` and
`SRC_ADDR_W = 20`. DESIGN CHOICE: `TRANSPARENT = 0x00FF`, the number R7 uses "where a number must appear", and no window
(log 10). No statement rests on these values. -/
def Platform.default : Platform :=
  { pageSize := 8192, transparent := 0x00FF#16, srcAddrW := 20, windows := [], surfaceFill := .free,
    sourceFill := .free }

end Sys2Proof.Config
end

