-- ==== Sys2Proof/Machine/State.lean ====
section
/-! DEFINITION. The state of the block and of the host that drives it, its faults and refusals, and the state after reset
(R33). Everything is plain data. -/

namespace Sys2Proof.Machine

/-- The reasons the machine stops with a fault. -/
inductive Fault where
  /-- Raised by a host access to a span byte of the running command, on either port (R121). Safe: the spec gives no
  result. -/
  | surfaceHazard
  /-- Raised by a host write to a source byte of the running command, on either port (R122). Safe: the spec gives no
  result. -/
  | sourceHazard
  /-- Raised by an engine step of a command one of whose source bytes is the same memory as one of its span bytes (R123,
  log 10). Safe: the spec gives no result. -/
  | aliasHazard
  /-- Raised by an access to a surface index from `4 * PAGE_SIZE` up, which does not exist (R34; log 8, log 14). Safe. -/
  | surfaceOutOfRange
  /-- Raised by a host access to a source address from `2^SRC_ADDR_W` up, which does not exist (R34; log 8). Safe. -/
  | sourceOutOfRange
  /-- Raised by an engine step while `L.op` selects no rasterizer, which no run reaches (R74; log 14). Safe. -/
  | noRasterizer
  deriving DecidableEq, Repr

/-- The reasons the model gives no meaning. -/
inductive Refusal where
  /-- Raised by `exec` for an instruction without a meaning. Safe. -/
  | notModelled (mnemonic : String)
  /-- Raised for a register access that is byte-wide, at an odd offset or outside the window (R44; log 6). Safe. -/
  | unsupportedRegisterAccess
  /-- Raised for a stream word that is no word of R60 (log 7). Safe. -/
  | illegalStreamWord
  deriving DecidableEq, Repr

/-- A memory: address and byte pairs, addresses rising, none equal to what an unlisted address reads as (`Memory.wf`). -/
abbrev Memory := List Host.Cell

/-- The request registers that have storage (R14). `STATUS` is `State.status`. -/
structure Regs where
  cmd : Word
  srcLo : Word
  srcHi : Word
  wbytes : Word
  hbytes : Word
  xorg : Word
  yorg : Word
  xscale : Word
  yscale : Word
  fg : Word
  bg : Word
  deriving DecidableEq, Repr

/-- The result codes of `STATUS.ERR` (R17). Codes 5 to 7 are "never produced". -/
inductive ErrCode where
  | none
  | badOp
  | origin
  | scale
  | color
  deriving DecidableEq, Repr

/-- The fields of `STATUS` (R17). -/
structure Status where
  busy : Bool
  done : Bool
  err : ErrCode
  ovr : Bool
  deriving DecidableEq, Repr

/-- The latched request `L` (R29). -/
structure Latched where
  op : BitVec 2
  invx : Bool
  src : BitVec 32
  wb : Word
  hb : Word
  x : Word
  y : Word
  xs : Word
  ys : Word
  fg : Nibble
  bg : Word
  deriving DecidableEq, Repr

/-- `int[PHASE]` (R31): the next surface access of the span byte. -/
inductive Phase where
  | rd
  | wr
  deriving DecidableEq, Repr

/-- The internal state of the engine: `L` (R29), the clamped sizes (R30) and the sequencer counters (R31). -/
structure Engine where
  latched : Latched
  /-- `int[W]` -/
  w : Nat
  /-- `int[H]` -/
  h : Nat
  /-- `int[ROW]` -/
  row : Nat
  /-- `int[BANK]` -/
  bank : Fin 4
  /-- `int[ROWOFF]` -/
  rowOff : Nat
  /-- `int[K]` -/
  k : Nat
  /-- `int[PHASE]` -/
  phase : Phase
  /-- `int[HOLD]` -/
  hold : Byte
  deriving DecidableEq, Repr

/-- One thing the outside world does to the block or its memories. -/
inductive HostEvent where
  /-- A command word or a stream word (R55, R60). -/
  | word (w : HostWord)
  /-- A raw access of `bytes` bytes to the register port: a write of `value`, or a read (R34, R44, R54). -/
  | port (bytes offset : Nat) (value : Option Word)
  /-- A direct host read of a surface byte (R13, R121). -/
  | surfaceRead (idx : Nat)
  /-- A direct host write of a surface byte (R13, R121). -/
  | surfaceWrite (idx : Nat) (v : Byte)
  /-- A direct host read of a source byte (R13). -/
  | sourceRead (a : Nat)
  /-- A direct host write of a source byte (R13, R122). -/
  | sourceWrite (a : Nat) (v : Byte)
  /-- The reset input (R117). -/
  | reset
  deriving DecidableEq, Repr

/-- The two agents (R13). -/
inductive Agent where
  | host
  | engine
  deriving DecidableEq, Repr

/-- The state. The first six fields are the block's and its memories'; the last four are the host agent's. -/
structure State where
  /-- The parameters (R6 to R8) and the platform's mapping of the source port (R123), which no step changes. -/
  platform : Config.Platform
  /-- The request registers (R14). -/
  regs : Regs
  /-- `STATUS` (R17). -/
  status : Status
  /-- The engine (R29 to R31). -/
  engine : Engine
  /-- The surface (R36). -/
  surface : Memory
  /-- The source memory (R39) behind the addresses that no window maps. -/
  source : Memory
  /-- The accesses and resets still to come, oldest first (log 4). -/
  pending : List HostEvent
  /-- Who takes the next steps in which both agents could move (log 3). -/
  schedule : List Agent
  /-- The values `rd` and `wait` recorded, oldest first (R60, log 18). -/
  reads : List Word
  /-- The bytes direct memory reads returned, oldest first (log 18). -/
  memReads : List Byte
  deriving DecidableEq, Repr

/-- Every request register after reset (R33). -/
def Regs.reset : Regs :=
  { cmd := 0, srcLo := 0, srcHi := 0, wbytes := 0, hbytes := 0, xorg := 0, yorg := 0, xscale := 0, yscale := 0,
    fg := 0, bg := 0 }

/-- `STATUS` after reset (R33). -/
def Status.reset : Status := { busy := false, done := false, err := .none, ovr := false }

/-- `L` after reset (R33). -/
def Latched.reset : Latched :=
  { op := 0, invx := false, src := 0, wb := 0, hb := 0, x := 0, y := 0, xs := 0, ys := 0, fg := 0, bg := 0 }

/-- `L`, the clamped sizes and the counters after reset (R33). -/
def Engine.reset : Engine :=
  { latched := Latched.reset, w := 0, h := 0, row := 0, bank := 0, rowOff := 0, k := 0, phase := .rd, hold := 0 }

/-- The machine right after reset (R33, R117), with nothing listed in its memories and no host access to come. -/
def State.reset : State :=
  { platform := Config.Platform.default, regs := Regs.reset, status := Status.reset, engine := Engine.reset,
    surface := [], source := [], pending := [], schedule := [], reads := [], memReads := [] }

end Sys2Proof.Machine
end

