-- ==== Sys2Proof/Machine/Ops.lean ====
section
/-! DEFINITION. The named operations over memories, registers and the host's record, the rejection of a command (R99, the
block's one exception), the overrun (R98) and the reset event (R117). -/

namespace Sys2Proof.Machine

/-! ### Memory -/

/-- The byte at `a`: the listed one, else what an unlisted address reads as. -/
def Memory.read (unlisted : Nat → Byte) : Memory → Nat → Byte
  | [], a => unlisted a
  | (b, v) :: rest, a => if b = a then v else Memory.read unlisted rest a

/-- The memory with byte `v` at `a`, in canonical form: an entry equal to what an unlisted address reads as is removed. -/
def Memory.write (unlisted : Nat → Byte) : Memory → Nat → Byte → Memory
  | [], a, v => if v = unlisted a then [] else [(a, v)]
  | (b, u) :: rest, a, v =>
    if a < b then (if v = unlisted a then (b, u) :: rest else (a, v) :: (b, u) :: rest)
    else if a = b then (if v = unlisted a then rest else (a, v) :: rest)
    else (b, u) :: Memory.write unlisted rest a v

/-- Every listed address is at least `lo`, addresses rise, and no entry equals what an unlisted address reads as. -/
def Memory.wfFrom (unlisted : Nat → Byte) : Nat → Memory → Bool
  | _, [] => true
  | lo, (a, v) :: rest => decide (lo ≤ a) && decide (v ≠ unlisted a) && Memory.wfFrom unlisted (a + 1) rest

/-- The canonical form of a memory. -/
def Memory.wf (unlisted : Nat → Byte) (m : Memory) : Bool := Memory.wfFrom unlisted 0 m

/-- Every listed address lies below `size`. -/
def Memory.below (size : Nat) (m : Memory) : Bool := m.all fun c => decide (c.1 < size)

/-- The byte a fill gives address `a`, with `free` the free draws. -/
def fillByte (fill : Config.Fill) (free : Nat → Byte) (a : Nat) : Byte :=
  match fill with
  | .free => free a
  | .byte b => b

/-- What an unlisted surface index reads as: its byte at power-up (R38, R119; log 2). -/
def surfaceUnlisted (p : Config.Platform) (idx : Nat) : Byte := fillByte p.surfaceFill Config.surfaceAtPowerUp idx

/-- What an unlisted source address reads as: its byte before the run (log 2). -/
def sourceUnlisted (p : Config.Platform) (a : Nat) : Byte := fillByte p.sourceFill Config.sourceAtPowerUp a

/-- The size of the surface in bytes, `4 * PAGE_SIZE` (R34, R36). -/
def surfaceSize (p : Config.Platform) : Nat := Config.banks * p.pageSize

/-- The width of a surface index, `ceil(log2(4 * PAGE_SIZE))` (R8). -/
def surfAddrW (p : Config.Platform) : Nat := Nat.clog 2 (surfaceSize p)

/-- The size of the source space in bytes, `2^SRC_ADDR_W` (R34). -/
def sourceSize (p : Config.Platform) : Nat := 2 ^ p.srcAddrW

/-- `MemRead(SURF, idx, 1)` (R12). -/
def memReadSurf (s : State) (idx : Nat) : Byte := Memory.read (surfaceUnlisted s.platform) s.surface idx

/-- `MemWrite(SURF, idx, 1, v)` (R12): "Surface writes change only the byte written" (R46). -/
def memWriteSurf (s : State) (idx : Nat) (v : Byte) : State :=
  { s with surface := Memory.write (surfaceUnlisted s.platform) s.surface idx v }

/-- The surface index that is the same memory as source address `a`, where the platform maps one (R123). Of two windows
that both hold the address the first counts (log 10). -/
def aliasIndex (p : Config.Platform) (a : Nat) : Option Nat :=
  (p.windows.find? fun w => decide (w.source ≤ a ∧ a < w.source + w.size)).map fun w => w.surface + (a - w.source)

/-- No listed address is one that a window maps: the bytes of a window stand in the surface only. -/
def Memory.unaliased (p : Config.Platform) (m : Memory) : Bool := m.all fun c => (aliasIndex p c.1).isNone

/-- `MemRead(SRC, a, 1)` (R12, R42). Through a window it reads the surface as it is now, drawn bytes included (R123). -/
def memReadSrc (s : State) (a : Nat) : Byte :=
  match aliasIndex s.platform a with
  | some idx => memReadSurf s idx
  | none => Memory.read (sourceUnlisted s.platform) s.source a

/-- The caller's write of a source byte, through a window a write of the surface (R123). There is no `MemWrite(SRC, ..)`
of the block (R12). -/
def hostWriteSrc (s : State) (a : Nat) (v : Byte) : State :=
  match aliasIndex s.platform a with
  | some idx => memWriteSurf s idx v
  | none => { s with source := Memory.write (sourceUnlisted s.platform) s.source a v }

/-! ### The host agent -/

/-- The host's access at the head of the queue is done: the next one stands at the head. -/
def advance (s : State) : State := { s with pending := s.pending.tail }

/-- The host records a register value it read (R60). -/
def record (v : Word) (s : State) : State := { s with reads := s.reads ++ [v] }

/-- The host keeps a byte it read from a memory (log 18). -/
def recordByte (v : Byte) (s : State) : State := { s with memReads := s.memReads ++ [v] }

/-! ### Registers -/

/-- The registers of the window (R14). `reserved` is one of the offsets 0x18 to 0x1E (R27). -/
inductive Reg where
  | cmd
  | status
  | srcLo
  | srcHi
  | wbytes
  | hbytes
  | xorg
  | yorg
  | xscale
  | yscale
  | fg
  | bg
  | reserved
  deriving DecidableEq, Repr

/-- The register map of R14: even offsets 0x00 to 0x1E, no register anywhere else (R44). -/
def regAt (offset : Nat) : Option Reg :=
  match offset with
  | 0x00 => some .cmd
  | 0x02 => some .status
  | 0x04 => some .srcLo
  | 0x06 => some .srcHi
  | 0x08 => some .wbytes
  | 0x0A => some .hbytes
  | 0x0C => some .xorg
  | 0x0E => some .yorg
  | 0x10 => some .xscale
  | 0x12 => some .yscale
  | 0x14 => some .fg
  | 0x16 => some .bg
  | 0x18 => some .reserved
  | 0x1A => some .reserved
  | 0x1C => some .reserved
  | 0x1E => some .reserved
  | _ => none

/-- The code of an error in `ERR` (R17). -/
def errCode (e : ErrCode) : BitVec 3 :=
  match e with
  | .none => 0
  | .badOp => 1
  | .origin => 2
  | .scale => 3
  | .color => 4

/-- The value of a `STATUS` read: `BUSY` in bit 0, `DONE` in bit 1, `ERR` in bits 4:2, `OVR` in bit 5, bits 15:6 zero
(R17). -/
def statusWord (st : Status) : Word :=
  (0#10 : BitVec 10) ++ BitVec.ofBool st.ovr ++ errCode st.err ++ BitVec.ofBool st.done ++ BitVec.ofBool st.busy

/-- The value of a register read (R14 to R17, R27). No read has a side effect (R46). -/
def readReg (s : State) (r : Reg) : Word :=
  match r with
  | .cmd => s.regs.cmd
  | .status => statusWord s.status
  | .srcLo => s.regs.srcLo
  | .srcHi => s.regs.srcHi
  | .wbytes => s.regs.wbytes
  | .hbytes => s.regs.hbytes
  | .xorg => s.regs.xorg
  | .yorg => s.regs.yorg
  | .xscale => s.regs.xscale
  | .yscale => s.regs.yscale
  | .fg => s.regs.fg
  | .bg => s.regs.bg
  | .reserved => 0

/-- The storage a register write changes: all 16 bits (R15), none for `STATUS` (R17) and the reserved offsets (R27).
For `CMD` this is only the store of R16; the issue is `onCmdWrite`. -/
def storeReg (r : Reg) (v : Word) (g : Regs) : Regs :=
  match r with
  | .cmd => { g with cmd := v }
  | .status => g
  | .srcLo => { g with srcLo := v }
  | .srcHi => { g with srcHi := v }
  | .wbytes => { g with wbytes := v }
  | .hbytes => { g with hbytes := v }
  | .xorg => { g with xorg := v }
  | .yorg => { g with yorg := v }
  | .xscale => { g with xscale := v }
  | .yscale => { g with yscale := v }
  | .fg => { g with fg := v }
  | .bg => { g with bg := v }
  | .reserved => g

/-! ### The exception: rejection, and what stands beside it -/

/-- The clearing of the last result by a `CMD` write made while `BUSY = 0` (R95). It is all the "return" there is
(R107). -/
def clearResult (s : State) : State := { s with status := { s.status with done := false, err := .none, ovr := false } }

/-- `raise Reject(code)` (R99, R106): the code is recorded in `STATUS.ERR` and nothing else changes. -/
def reject (code : ErrCode) (s : State) : State := { s with status := { s.status with err := code } }

/-- `Overrun()` (R98): `OVR` is set and the running command goes on unchanged. -/
def overrun (s : State) : State := { s with status := { s.status with ovr := true } }

/-! ### Reset -/

/-- The reset event (R117): every register, `STATUS` and the internal state take their values of R33. The memories are
untouched (R119), and so is what is outside the block (log 15). -/
def applyReset (s : State) : State :=
  { s with regs := Regs.reset, status := Status.reset, engine := Engine.reset }

end Sys2Proof.Machine
end

