-- ==== Sys2Proof/Machine/Operands.lean ====
section
/-! DEFINITION. Operand forms: the address translator (R62 to R66), the column split (R64), the latch of a request (R29,
R56), the clamped sizes (R68, R69), the row span (R75) and the source pixels (R39, R40, R72). -/

namespace Sys2Proof.Machine

/-! ### The address translator -/

/-- The outputs of `XLATE` (R62). -/
structure XlateOut where
  bank : Nat
  rowOffset : Nat
  bx : Nat
  idx : Nat
  nib : Nat
  deriving DecidableEq, Repr

/-- `XlateCol(c, ppb)` (R64): the byte of a row that holds column `c`, and the position in it. -/
def xlateCol (c ppb : Nat) : Nat × Nat := (c / ppb, c % ppb)

/-- `XLATE` (R63). -/
def xlate (pageSize px py : Nat) : XlateOut :=
  let bank := py % Config.banks
  let rowOffset := py / Config.banks * Config.rowBytes
  let col := xlateCol px Config.pxPerByte
  { bank := bank, rowOffset := rowOffset, bx := col.1, idx := bank * pageSize + rowOffset + col.1, nib := col.2 }

/-! ### Nibbles of a byte -/

/-- The high nibble, bits 7:4, the left pixel (R10, R37). -/
def hiNibble (b : Byte) : Nibble := b.extractLsb' 4 4

/-- The low nibble, bits 3:0, the right pixel (R10, R37). -/
def loNibble (b : Byte) : Nibble := b.extractLsb' 0 4

/-- The nibble at position `pos`: 0 is the high one (R37, R39). -/
def nibbleAt (b : Byte) (pos : Nat) : Nibble := if pos = 0 then hiNibble b else loNibble b

/-! ### The request -/

/-- `L.src`: `{SRC_HI, SRC_LO} mod 2^SRC_ADDR_W` (R18, R29, R56). -/
def sourceBase (s : State) : BitVec 32 :=
  BitVec.ofNat 32 ((s.regs.srcHi ++ s.regs.srcLo : BitVec 32).toNat % sourceSize s.platform)

/-- The latched request of command word `v` (R29). -/
def latch (v : Word) (s : State) : Latched :=
  { op := v.extractLsb' 0 2
    invx := v.getLsbD 2
    src := sourceBase s
    wb := s.regs.wbytes
    hb := s.regs.hbytes
    x := s.regs.xorg
    y := s.regs.yorg
    xs := s.regs.xscale
    ys := s.regs.yscale
    fg := s.regs.fg.extractLsb' 0 4
    bg := s.regs.bg }

/-- The value of `L.op` for `DRAW_BILEVEL` (R29). -/
def opBilevel : BitVec 2 := 1

/-- The value of `L.op` for `DRAW_MULTILEVEL` (R29). -/
def opMultilevel : BitVec 2 := 2

/-- `PPS`, the source pixels per byte (R68). -/
def pixelsPerByte (op : BitVec 2) : Nat := if op = opBilevel then 8 else 2

/-- `W` (R68). The product is exact (R9). -/
def clampedWidth (l : Latched) : Nat :=
  min (l.wb.toNat * pixelsPerByte l.op * l.xs.toNat) (Config.screenW - l.x.toNat)

/-- `H` (R69). The product is exact (R9). -/
def clampedHeight (l : Latched) : Nat := min (l.hb.toNat * l.ys.toNat) (Config.screenH - l.y.toNat)

/-! ### The row span (R75) -/

/-- `bfirst`. -/
def bfirst (e : Engine) : Nat := e.latched.x.toNat / 2

/-- `x1`, the last destination column. -/
def lastColumn (e : Engine) : Nat := e.latched.x.toNat + e.w - 1

/-- `blast`. -/
def blast (e : Engine) : Nat := lastColumn e / 2

/-- `NB`, the span bytes of a row. -/
def spanBytes (e : Engine) : Nat := blast e - bfirst e + 1

/-- `LEAD`. -/
def leadNibbles (e : Engine) : Nat := e.latched.x.toNat % 2

/-- `TRAIL`. -/
def trailNibbles (e : Engine) : Nat := 1 - lastColumn e % 2

/-- `NP`, the span bytes with both nibbles drawn. -/
def spanPairs (e : Engine) : Nat := spanBytes e - leadNibbles e - trailNibbles e

/-- The surface accesses of a command: `2 * NB * H` (R78, R80). -/
def accessCount (e : Engine) : Nat := 2 * spanBytes e * e.h

/-- The surface index of span byte `b` of output row `i` (R63, R82). -/
def spanIndex (p : Config.Platform) (e : Engine) (i b : Nat) : Nat :=
  (xlate p.pageSize (2 * b) (e.latched.y.toNat + i)).idx

/-- Whether `idx` is a span byte of the command (R121): the inverse of `XLATE` on the bytes that hold pixels (R65). -/
def isSpanIndex (p : Config.Platform) (e : Engine) (idx : Nat) : Bool :=
  let off := idx % p.pageSize
  let py := off / Config.rowBytes * Config.banks + idx / p.pageSize
  let bx := off % Config.rowBytes
  decide (off < Config.rowsPerBank * Config.rowBytes) && decide (idx < surfaceSize p)
    && decide (e.latched.y.toNat ≤ py) && decide (py < e.latched.y.toNat + e.h)
    && decide (bfirst e ≤ bx) && decide (bx ≤ blast e)

/-! ### The source bitmap -/

/-- The address of source row `r`, row byte `j` (R40): the sum is exact, then reduced mod `2^SRC_ADDR_W`. -/
def sourceAddr (p : Config.Platform) (l : Latched) (r j : Nat) : Nat :=
  (l.src.toNat + r * l.wb.toNat + j) % sourceSize p

/-- Whether `a` is one of the `L.wb * L.hb` source bytes of the command (R41, R122). They follow one another from `L.src`
and wrap at the top of the space. -/
def isSourceByte (p : Config.Platform) (l : Latched) (a : Nat) : Bool :=
  decide (a < sourceSize p)
    && decide ((a + (sourceSize p - l.src.toNat % sourceSize p)) % sourceSize p < l.wb.toNat * l.hb.toNat)

/-- Whether surface index `idx` is the same memory as one of the source bytes of the command (R123). -/
def isSourceIndex (p : Config.Platform) (l : Latched) (idx : Nat) : Bool :=
  p.windows.any fun w =>
    decide (w.surface ≤ idx) && decide (aliasIndex p (w.source + (idx - w.surface)) = some idx)
      && isSourceByte p l (w.source + (idx - w.surface))

/-- Whether a source byte of the command is the same memory as one of its span bytes, so that R123 gives it no defined
result. -/
def overlaps (p : Config.Platform) (e : Engine) : Bool :=
  !p.windows.isEmpty && (List.range e.h).any fun i => (List.range (spanBytes e)).any fun k =>
    isSourceIndex p e.latched (spanIndex p e i (bfirst e + k))

/-- The source row of output row `i` (R72). -/
def sourceRow (l : Latched) (i : Nat) : Nat := i / l.ys.toNat

/-- The source column of output column `j` in scan order (R72). -/
def scanColumn (l : Latched) (j : Nat) : Nat := j / l.xs.toNat

/-- The source column of a multi-level draw (R89): mirrored from the last nibble of the full row. -/
def multilevelColumn (l : Latched) (j : Nat) : Nat :=
  if l.invx then 2 * l.wb.toNat - 1 - scanColumn l j else scanColumn l j

/-- The bi-level source pixel at row `r`, column `c`: bit `7 - (c mod 8)` of row byte `c div 8` (R39). -/
def bilevelSource (s : State) (r c : Nat) : Bool :=
  let col := xlateCol c 8
  (memReadSrc s (sourceAddr s.platform s.engine.latched r col.1)).getLsbD (7 - col.2)

/-- The multi-level source pixel at row `r`, column `c`: nibble `c mod 2` of row byte `c div 2` (R39). -/
def multilevelSource (s : State) (r c : Nat) : Nibble :=
  let col := xlateCol c 2
  nibbleAt (memReadSrc s (sourceAddr s.platform s.engine.latched r col.1)) col.2

end Sys2Proof.Machine
end

