-- ==== Sys2Proof/Machine/Flags.lean ====
section
/-! DEFINITION. What the block tests and sets in `STATUS`: the checks of a `CMD` write in their order (R96, R105), and the
status changes of acceptance (R97) and completion (R80). The block has no other flags (R32). -/

namespace Sys2Proof.Machine

/-- The three accepted command words (R57). -/
def legalCommand (v : Word) : Bool := v == 0x0001#16 || v == 0x0002#16 || v == 0x0006#16

/-- `BG` is a colour or the sentinel (R26, R103). -/
def legalBackground (p : Config.Platform) (bg : Word) : Bool := decide (bg.toNat ≤ 15) || bg == p.transparent

/-- `Check(v)` (R96), in the priority of R105. -/
def check (v : Word) (s : State) : ErrCode :=
  if !legalCommand v then .badOp
  else if s.regs.xorg.toNat > 319 || s.regs.yorg.toNat > 199 then .origin
  else if s.regs.xscale == 0 || s.regs.yscale == 0 then .scale
  else if v.extractLsb' 0 2 == opBilevel && decide (s.regs.fg.toNat > 15) then .color
  else if !legalBackground s.platform s.regs.bg then .color
  else .none

/-- The status change of acceptance (R97): `DONE` at once for an empty draw (R70), else `BUSY`. -/
def setAccepted (empty : Bool) (st : Status) : Status :=
  if empty then { st with done := true } else { st with busy := true }

/-- The status change of completion (R80): `BUSY` falls, `DONE` rises, `ERR` and `OVR` keep their values. -/
def setComplete (st : Status) : Status := { st with busy := false, done := true }

end Sys2Proof.Machine
end

