-- ==== Sys2Proof/Machine/Raster.lean ====
section
/-! DEFINITION. The two pixel functions (R84, R90), the selection between them (R74), the nibble merge (R76, R77) and the
engine's step (R78 to R80). A pixel value `none` is `KEEP` (R12). -/

namespace Sys2Proof.Machine

/-- The value of a background pixel: `KEEP` when `L.bg` is the sentinel, else the colour `L.bg[3:0]` (R84, R90). -/
def backgroundPix (s : State) : Option Nibble :=
  if s.engine.latched.bg = s.platform.transparent then none else some (s.engine.latched.bg.extractLsb' 0 4)

/-- `BiPix(i, j)` (R84). -/
def biPix (s : State) (i j : Nat) : Option Nibble :=
  let l := s.engine.latched
  if bilevelSource s (sourceRow l i) (scanColumn l j) then some l.fg else backgroundPix s

/-- `MlPix(i, j)` (R90). `L.fg` is not read. -/
def mlPix (s : State) (i j : Nat) : Option Nibble :=
  let l := s.engine.latched
  let n := multilevelSource s (sourceRow l i) (multilevelColumn l j)
  if n ≠ 0 then some n else backgroundPix s

/-- `Pix(i, j)`, selected by `L.op` (R74). -/
def pix (s : State) (i j : Nat) : Option Nibble :=
  if s.engine.latched.op = opBilevel then biPix s i j else mlPix s i j

/-- Whether `L.op` selects a rasterizer: it "never takes another value in an accepted command" (R74). -/
def rasterizerSelected (e : Engine) : Bool := e.latched.op == opBilevel || e.latched.op == opMultilevel

/-- `PixAt(i, px)` (R76): `KEEP` outside the drawn columns `L.x .. L.x + W - 1`. -/
def pixAt (s : State) (i px : Nat) : Option Nibble :=
  let x := s.engine.latched.x.toNat
  if x ≤ px ∧ px < x + s.engine.w then pix s i (px - x) else none

/-- `Merge(i, b, old)` (R77): a `KEEP` nibble is copied from `old`. -/
def merge (s : State) (i b : Nat) (old : Byte) : Byte :=
  (pixAt s i (2 * b)).getD (hiNibble old) ++ (pixAt s i (2 * b + 1)).getD (loNibble old)

/-- The column byte of the current span byte (R78). -/
def currentByte (e : Engine) : Nat := bfirst e + e.k

/-- The surface index of the current span byte, from the incremental counters (R78). -/
def currentIndex (s : State) : Nat :=
  s.engine.bank.val * s.platform.pageSize + s.engine.rowOff + currentByte s.engine

/-- The wrap-then-advance of the bank counters, once per output row (R67, R79). -/
def bankStep (e : Engine) : Engine :=
  if e.bank = 3 then { e with bank := 0, rowOff := e.rowOff + Config.rowBytes } else { e with bank := e.bank + 1 }

/-- `Complete()` (R80). -/
def complete (s : State) : State := { s with status := setComplete s.status }

/-- `RowStep()` (R79). -/
def rowStep (s : State) : State :=
  let t : State := { s with engine := bankStep { s.engine with k := 0, row := s.engine.row + 1 } }
  if t.engine.row = t.engine.h then complete t else t

/-- The `RD` half of an engine step (R78): `HOLD` takes the span byte. -/
def engineRead (s : State) : State :=
  { s with engine := { s.engine with hold := memReadSurf s (currentIndex s), phase := .wr } }

/-- The `WR` half of an engine step (R78): the merged byte is written and the sequencer moves on. -/
def engineWrite (s : State) : State :=
  let e := s.engine
  let t := memWriteSurf s (currentIndex s) (merge s e.row (currentByte e) e.hold)
  if e.k + 1 < spanBytes e then { t with engine := { e with phase := .rd, k := e.k + 1 } }
  else rowStep { t with engine := { e with phase := .rd } }

/-- `EngineStep()` (R78): exactly one surface access. It is enabled only while `BUSY = 1`; otherwise nothing happens.
A command whose source overlaps its spans has no defined result and faults (R123, log 10). The other two faults are for
states no run reaches (log 14). -/
def engineStep (s : State) : Host.Outcome State Fault Refusal :=
  if !s.status.busy then .next s
  else if !rasterizerSelected s.engine then .fault .noRasterizer
  else if overlaps s.platform s.engine then .fault .aliasHazard
  else if currentIndex s ≥ surfaceSize s.platform then .fault .surfaceOutOfRange
  else match s.engine.phase with
    | .rd => .next (engineRead s)
    | .wr => .next (engineWrite s)

end Sys2Proof.Machine
end

