-- ==== Sys2Proof/Machine/Draw.lean ====
section
/-! DEFINITION. The issue of a command by a `CMD` write (R95 to R98) and the meanings of the two draws (R85, R91). -/

namespace Sys2Proof.Machine

/-- The engine right after acceptance of `v` (R97): the latch, the clamped sizes and the counters. `HOLD` keeps its
value, since R97 does not write it (log 19). -/
def acceptedEngine (v : Word) (s : State) : Engine :=
  let l := latch v s
  { latched := l
    w := clampedWidth l
    h := clampedHeight l
    row := 0
    bank := Fin.ofNat 4 l.y.toNat
    rowOff := l.y.toNat / Config.banks * Config.rowBytes
    k := 0
    phase := .rd
    hold := s.engine.hold }

/-- `Accept(v)` (R97). An empty draw completes here and never sets `BUSY` (R70). -/
def accept (v : Word) (s : State) : State :=
  let e := acceptedEngine v s
  { s with engine := e, status := setAccepted (e.w == 0 || e.h == 0) s.status }

/-- `OnCmdWrite(v)` (R95), one transition. -/
def onCmdWrite (v : Word) (s : State) : State :=
  let t : State := { s with regs := storeReg .cmd v s.regs }
  if t.status.busy then overrun t
  else
    let u := clearResult t
    match check v u with
    | .none => accept v u
    | code => reject code u

/-- `DRAW_BILEVEL` (R85): the `CMD` write of 0x0001. The engine then carries the loop out (R78). -/
def execDrawBilevel (s : State) : Host.Outcome State Fault Refusal := .next (advance (onCmdWrite 0x0001#16 s))

/-- `DRAW_MULTILEVEL` (R91): the `CMD` write of 0x0002 or 0x0006. The engine then carries the loop out (R78). -/
def execDrawMultilevel (invx : Bool) (s : State) : Host.Outcome State Fault Refusal :=
  .next (advance (onCmdWrite (if invx then 0x0006#16 else 0x0002#16) s))

/-- The `CMD` write of a reserved command word: the exception `E_BAD_OP` is taken (R58, R100), or an overrun (R98). -/
def issueReserved (v : Word) (s : State) : Host.Outcome State Fault Refusal := .next (advance (onCmdWrite v s))

end Sys2Proof.Machine
end

