-- ==== Sys2Proof/Machine/Access.lean ====
section
/-! DEFINITION. The meanings of the host's register accesses `wr`, `rd` and `wait` (R60). -/

namespace Sys2Proof.Machine

/-- A 16-bit write of `v` to a register: a `CMD` write issues a command (R95), any other only stores (R15, R17, R27). -/
def writeReg (r : Reg) (v : Word) (s : State) : State :=
  match r with
  | .cmd => onCmdWrite v s
  | _ => { s with regs := storeReg r v s.regs }

/-- `wr REG, imm16` (R60). An offset that is no register is refused (R44). -/
def execWr (offset : Nat) (v : Word) (s : State) : Host.Outcome State Fault Refusal :=
  match regAt offset with
  | some r => .next (advance (writeReg r v s))
  | none => .refused .unsupportedRegisterAccess

/-- `rd REG` (R60): the value is recorded and nothing else happens (R46). An offset that is no register is refused
(R44). -/
def execRd (offset : Nat) (s : State) : Host.Outcome State Fault Refusal :=
  match regAt offset with
  | some r => .next (advance (record (readReg s r) s))
  | none => .refused .unsupportedRegisterAccess

/-- `wait` (R60): one read of `STATUS`. While `BUSY = 1` the access stays at the head and is made again; the read that
finds `BUSY = 0` is recorded and ends it (log 11). -/
def execWait (s : State) : Host.Outcome State Fault Refusal :=
  if s.status.busy then .next s else .next (advance (record (readReg s .status) s))

end Sys2Proof.Machine
end

