-- ==== Sys2Proof/Machine/Dispatch.lean ====
section
/-! DEFINITION. The meaning of every instruction, one arm per constructor. -/

namespace Sys2Proof.Machine

def exec (i : Instr) (s : State) : Host.Outcome State Fault Refusal :=
  match i with
  | .drawBilevel => Sys2Proof.Machine.execDrawBilevel s
  | .drawMultilevel invx => Sys2Proof.Machine.execDrawMultilevel invx s
  | .wr offset imm => Sys2Proof.Machine.execWr offset imm s
  | .rd offset => Sys2Proof.Machine.execRd offset s
  | .wait => Sys2Proof.Machine.execWait s

end Sys2Proof.Machine
end

