-- ==== Sys2Proof/Machine/Turn.lean ====
section
/-! DEFINITION. One step of the machine: which agent moves (R13), and what each event of the outside world does. -/

namespace Sys2Proof.Machine

/-- Where the next host word is placed by `State.withFetchWord`. -/
def fetchWord (s : State) (nbits w : Nat) : State :=
  match tableWord nbits w with
  | some hw =>
    { s with
      pending := .word hw :: s.pending
      schedule := if s.status.busy then .host :: s.schedule else s.schedule }
  | none => s

/-- Both agents could move: the engine has its step (R78) and the host has an access left. -/
def contended (s : State) : Bool := s.status.busy && !s.pending.isEmpty

/-- The agent that moves next, none when neither can. Where both could, `schedule` says; when it is used up the engine
moves, which is the fairness of R126 (log 3). -/
def mover (s : State) : Option Agent :=
  if contended s then some (s.schedule.headD .engine)
  else if s.status.busy then some .engine
  else if s.pending.isEmpty then none
  else some .host

/-- The choice of a contended step is used up. -/
def takeTurn (s : State) : State := if contended s then { s with schedule := s.schedule.tail } else s

/-- A direct host read of the surface: a `HAZARD` on a span byte while `BUSY = 1` (R121), else free. -/
def hostReadSurface (idx : Nat) (s : State) : Host.Outcome State Fault Refusal :=
  if idx ≥ surfaceSize s.platform then .fault .surfaceOutOfRange
  else if s.status.busy && isSpanIndex s.platform s.engine idx then .fault .surfaceHazard
  else .next (advance (recordByte (memReadSurf s idx) s))

/-- A direct host write of the surface: a `HAZARD` while `BUSY = 1` on a span byte (R121) and on a byte that is a source
byte of the running command too (R122, R123), else free. -/
def hostWriteSurface (idx : Nat) (v : Byte) (s : State) : Host.Outcome State Fault Refusal :=
  if idx ≥ surfaceSize s.platform then .fault .surfaceOutOfRange
  else if s.status.busy && isSpanIndex s.platform s.engine idx then .fault .surfaceHazard
  else if s.status.busy && isSourceIndex s.platform s.engine.latched idx then .fault .sourceHazard
  else .next (advance (memWriteSurf s idx v))

/-- A direct host read of the source: of a byte in a window the read of that surface byte (R123), of any other one free,
since R122 speaks of writes only. -/
def hostReadSource (a : Nat) (s : State) : Host.Outcome State Fault Refusal :=
  if a ≥ sourceSize s.platform then .fault .sourceOutOfRange
  else match aliasIndex s.platform a with
    | some idx => hostReadSurface idx s
    | none => .next (advance (recordByte (memReadSrc s a) s))

/-- A direct host write of the source: of a byte in a window the write of that surface byte (R123), else a `HAZARD` on a
byte of the running command while `BUSY = 1` (R122). -/
def hostWriteSource (a : Nat) (v : Byte) (s : State) : Host.Outcome State Fault Refusal :=
  if a ≥ sourceSize s.platform then .fault .sourceOutOfRange
  else match aliasIndex s.platform a with
    | some idx => hostWriteSurface idx v s
    | none =>
      if s.status.busy && isSourceByte s.platform s.engine.latched a then .fault .sourceHazard
      else .next (advance (hostWriteSrc s a v))

/-- A host word: the decoded instruction, the rejection of a reserved command word (R100), or a refusal (log 7). -/
def runWord (w : HostWord) (s : State) : Host.Outcome State Fault Refusal :=
  match decode w with
  | .ok i => exec i s
  | .error (.reservedCommand v) => issueReserved v s
  | .error _ => .refused .illegalStreamWord

/-- A raw access to the register port (R34, R44, R54): 16 bits wide or refused. -/
def runPort (bytes offset : Nat) (value : Option Word) (s : State) : Host.Outcome State Fault Refusal :=
  if bytes = 2 then
    match value with
    | some v => exec (.wr offset v) s
    | none => exec (.rd offset) s
  else .refused .unsupportedRegisterAccess

/-- What one event of the outside world does. -/
def runEvent (ev : HostEvent) (s : State) : Host.Outcome State Fault Refusal :=
  match ev with
  | .word w => runWord w s
  | .port bytes offset value => runPort bytes offset value s
  | .surfaceRead idx => hostReadSurface idx s
  | .surfaceWrite idx v => hostWriteSurface idx v s
  | .sourceRead a => hostReadSource a s
  | .sourceWrite a v => hostWriteSource a v s
  | .reset => .next (advance (applyReset s))

/-- The host agent's move: the event at the head of `pending`. -/
def hostStep (s : State) : Host.Outcome State Fault Refusal :=
  match s.pending with
  | ev :: _ => runEvent ev s
  | [] => .next s

/-- One step: the agent that moves, after the choice is used up. An idle block with no host access waits (R117;
log 5). -/
def runTurn (s : State) : Host.Outcome State Fault Refusal :=
  match mover s with
  | some .engine => engineStep (takeTurn s)
  | some .host => hostStep (takeTurn s)
  | none => .next s

end Sys2Proof.Machine
end

