-- ==== Sys2Proof/Machine/Step.lean ====
section
/-! DEFINITION. The step function, and where it takes its next instruction from. -/

namespace Sys2Proof.Machine

/-- One step of the machine. -/
def step (s : State) : Host.Outcome State Fault Refusal := runTurn s

/-- `s` with the word `w` of the opcode table as the next thing the host does, and the turn given to the host if the
engine runs, so that the very next step runs it (log 4). -/
def State.withFetchWord (s : State) (nbits w : Nat) : State := fetchWord s nbits w

end Sys2Proof.Machine
end

