-- ==== Sys2Proof/Machine/Pseudo.lean ====
section
/-! DEFINITION. The pseudo-instructions of R61 as the lists of instructions they expand to, and how a host loads a program
(log 4). -/

namespace Sys2Proof.Machine

/-- `la addr32` (R61). -/
def pseudoLa (addr : BitVec 32) : List Instr :=
  [.wr 0x04 (addr.extractLsb' 0 16), .wr 0x06 (addr.extractLsb' 16 16)]

/-- The geometry writes `blit.bi` and `blit.ml` share (R61). -/
def pseudoGeometry (wb hb x y xs ys : Word) : List Instr :=
  [.wr 0x08 wb, .wr 0x0A hb, .wr 0x0C x, .wr 0x0E y, .wr 0x10 xs, .wr 0x12 ys]

/-- `blit.bi addr32, wb, hb, fg, bg, x, y, xs, ys` (R61). -/
def pseudoBlitBi (addr : BitVec 32) (wb hb fg bg x y xs ys : Word) : List Instr :=
  pseudoLa addr ++ pseudoGeometry wb hb x y xs ys ++ [.wr 0x14 fg, .wr 0x16 bg, .wr 0x00 0x0001#16, .wait]

/-- `blit.ml addr32, wb, hb, bg, x, y, xs, ys, invx` (R61). -/
def pseudoBlitMl (addr : BitVec 32) (wb hb bg x y xs ys : Word) (invx : Bool) : List Instr :=
  pseudoLa addr ++ pseudoGeometry wb hb x y xs ys ++
    [.wr 0x16 bg, .wr 0x00 (0x0002#16 ||| (BitVec.zeroExtend 16 (BitVec.ofBool invx) <<< 2)), .wait]

/-- The host accesses of a program, in order (R60). -/
def hostProgram (is : List Instr) : List HostEvent := is.map fun i => .word (encode i)

end Sys2Proof.Machine
end

