-- ==== Sys2Proof/Safety.lean ====
section
/-! DEFINITION. What claims are stated with: the invariant of the machine, the pixels of a surface, and runs of the
engine alone. -/

namespace Sys2Proof.Machine

/-- The legal combinations of `BUSY`, `DONE`, `ERR` and `OVR` (R17): idle, running, completed and rejected, with `OVR`
only in the running and completed ones. -/
abbrev Status.Legal (st : Status) : Prop :=
  (st.busy = true → st.done = false ∧ st.err = .none) ∧
  (st.done = true → st.err = .none) ∧
  (st.ovr = true → st.busy = true ∨ st.done = true)

/-- What is true of the engine while a command runs (R30, R31, R57, R67, R68, R69, R96). -/
structure Running (p : Config.Platform) (e : Engine) : Prop where
  op : e.latched.op = opBilevel ∨ e.latched.op = opMultilevel
  invx : e.latched.op = opBilevel → e.latched.invx = false
  src : e.latched.src.toNat < sourceSize p
  x : e.latched.x.toNat ≤ 319
  y : e.latched.y.toNat ≤ 199
  xs : 1 ≤ e.latched.xs.toNat
  ys : 1 ≤ e.latched.ys.toNat
  bg : e.latched.bg.toNat ≤ 15 ∨ e.latched.bg = p.transparent
  w : e.w = clampedWidth e.latched
  h : e.h = clampedHeight e.latched
  wPos : 1 ≤ e.w
  hPos : 1 ≤ e.h
  row : e.row < e.h
  bank : e.bank.val = (e.latched.y.toNat + e.row) % 4
  rowOff : e.rowOff = (e.latched.y.toNat + e.row) / 4 * 160
  k : e.k < spanBytes e

/-- The invariant: legal parameters, canonical memories inside their spaces, a legal status word, a running engine whose
counters agree with its request, and no source byte listed that a window maps. -/
structure State.Inv (s : State) : Prop where
  platform : s.platform.Legal
  surfaceWf : Memory.wf (surfaceUnlisted s.platform) s.surface = true
  surfaceBelow : Memory.below (surfaceSize s.platform) s.surface = true
  sourceWf : Memory.wf (sourceUnlisted s.platform) s.source = true
  sourceBelow : Memory.below (sourceSize s.platform) s.source = true
  status : s.status.Legal
  running : s.status.busy = true → Running s.platform s.engine
  sourceUnaliased : Memory.unaliased s.platform s.source = true

/-- The launch premise of R123 for a command: "none of its source bytes is the same memory as one of its span bytes". -/
def NoOverlap (p : Config.Platform) (e : Engine) : Prop :=
  ∀ r j i b, r < e.latched.hb.toNat → j < e.latched.wb.toNat → i < e.h → bfirst e ≤ b → b ≤ blast e →
    aliasIndex p (sourceAddr p e.latched r j) ≠ some (xlate p.pageSize (2 * b) (e.latched.y.toNat + i)).idx

/-- The colour of destination pixel `(px, py)` (R37, R63). -/
def pixelOf (s : State) (px py : Nat) : Nibble :=
  let t := xlate s.platform.pageSize px py
  nibbleAt (memReadSurf s t.idx) t.nib

/-- Whether a destination pixel lies in the clamped draw rectangle (R72). -/
abbrev inRect (e : Engine) (px py : Nat) : Prop :=
  e.latched.x.toNat ≤ px ∧ px < e.latched.x.toNat + e.w ∧ e.latched.y.toNat ≤ py ∧ py < e.latched.y.toNat + e.h

/-- The host moves in the next step: it has an access left and, if the engine could move too, `schedule` names the host
(log 3). -/
def HostTurn (s : State) : Prop := s.pending ≠ [] ∧ (s.status.busy = true → s.schedule.head? = some .host)

/-- The engine moves in the next step: it has an enabled step (R78) and the host does not move. -/
def EngineTurn (s : State) : Prop := s.status.busy = true ∧ ¬ HostTurn s

/-- The request registers hold a request that `Check` (R96) accepts. The colour of a bi-level draw is checked too when
`bilevel` holds (R103). -/
structure LegalRequest (bilevel : Prop) (s : State) : Prop where
  xorg : s.regs.xorg.toNat ≤ 319
  yorg : s.regs.yorg.toNat ≤ 199
  xscale : 1 ≤ s.regs.xscale.toNat
  yscale : 1 ≤ s.regs.yscale.toNat
  fg : bilevel → s.regs.fg.toNat ≤ 15
  bg : s.regs.bg.toNat ≤ 15 ∨ s.regs.bg = s.platform.transparent

/-- `n` steps of the engine with no host access between them. -/
def engineRun : Nat → State → Host.Outcome State Fault Refusal
  | 0, s => .next s
  | n + 1, s =>
    match engineStep s with
    | .next t => engineRun n t
    | .fault f => .fault f
    | .refused r => .refused r

end Sys2Proof.Machine
end

