-- ==== Sys2Proof/Certificates/Slice0/Obligations.lean ====
section
/-! DEFINITION. The statements for the provers, from the numbered rules of the spec. -/

open Sys2Proof Sys2Proof.Machine

/-! ### Encoding -/

/-- R57, R60: words written out from the spec's encodings and examples decode to the instructions they stand for. -/
def Obligations.SpecWordsDecode : Prop :=
  decode (.command 0b0000000000000001#16) = .ok .drawBilevel ∧
  decode (.command 0b0000000000000010#16) = .ok (.drawMultilevel false) ∧
  decode (.command 0b0000000000000110#16) = .ok (.drawMultilevel true) ∧
  decode (.stream 0x00010001#32) = .ok (.wr 0x00 0x0001#16) ∧
  decode (.stream 0x0005000D#32) = .ok (.wr 0x0C 0x0005#16) ∧
  decode (.stream 0x00000002#32) = .ok (.rd 0x02) ∧
  decode (.stream 0x00008002#32) = .ok .wait

/-- Decode and encode agree: every well-formed instruction, with every operand at every value its field admits, is what
the decoder reads from its word. -/
def Obligations.DecodeOfEncode : Prop :=
  ∀ i : Instr, i.wellFormed = true → decode (encode i) = .ok i

/-- Each word has one meaning: a decoded word is the encoding of a well-formed instruction. -/
def Obligations.EncodeOfDecode : Prop :=
  ∀ (w : HostWord) (i : Instr), decode w = .ok i → i.wellFormed = true ∧ encode i = w

/-- R57: exactly three command words are accepted opcodes, and R58: every other one is reserved. -/
def Obligations.ExactlyThreeCommandWords : Prop :=
  ∀ v : Word,
    (decode (.command v) = .ok .drawBilevel ↔ v = 0x0001#16) ∧
    (decode (.command v) = .ok (.drawMultilevel false) ↔ v = 0x0002#16) ∧
    (decode (.command v) = .ok (.drawMultilevel true) ↔ v = 0x0006#16) ∧
    ((∃ r, decode (.command v) = .error r) ↔ v ≠ 0x0001#16 ∧ v ≠ 0x0002#16 ∧ v ≠ 0x0006#16)

/-! ### A step -/

/-- When the host moves and the word at the head of its accesses decodes to `i`, the step is `exec i`; only a choice of
`schedule` is used up, when the engine could have moved too (log 3). -/
def Obligations.StepRunsDecodedInstruction : Prop :=
  ∀ (s : State) (w : HostWord) (i : Instr) (rest : List HostEvent),
    s.pending = .word w :: rest → decode w = .ok i →
    (s.status.busy = false → step s = exec i s) ∧
    (s.status.busy = true → s.schedule.head? = some .host →
      step s = exec i { s with schedule := s.schedule.tail })

/-- R78: while `BUSY = 1` and the host does not move, the step is the engine's. -/
def Obligations.StepRunsEngine : Prop :=
  ∀ s : State, s.status.busy = true →
    (s.pending = [] → step s = engineStep s) ∧
    (s.pending ≠ [] → s.schedule.head? ≠ some .host →
      step s = engineStep { s with schedule := s.schedule.tail })

/-! ### Issue: acceptance, rejection, overrun -/

/-- R97, R29 for `DRAW_BILEVEL`: with `BUSY = 0` and a legal request it answers the accepted state, in which nothing but
the listed fields differs. R97 does not write `HOLD`, so its value is left open here. -/
def Obligations.DrawBilevelAccepted : Prop :=
  ∀ s : State, s.status.busy = false → LegalRequest True s →
    let w := min (s.regs.wbytes.toNat * 8 * s.regs.xscale.toNat) (320 - s.regs.xorg.toNat)
    let h := min (s.regs.hbytes.toNat * s.regs.yscale.toNat) (200 - s.regs.yorg.toNat)
    ∃ hold : Byte, exec .drawBilevel s = .next
      { s with
        regs := { s.regs with cmd := 0x0001#16 }
        status := { busy := decide (w ≠ 0 ∧ h ≠ 0), done := decide (w = 0 ∨ h = 0), err := .none, ovr := false }
        engine :=
          { latched :=
              { op := 1, invx := false
                src := BitVec.ofNat 32
                  ((s.regs.srcHi.toNat * 2 ^ 16 + s.regs.srcLo.toNat) % 2 ^ s.platform.srcAddrW)
                wb := s.regs.wbytes, hb := s.regs.hbytes, x := s.regs.xorg, y := s.regs.yorg
                xs := s.regs.xscale, ys := s.regs.yscale
                fg := BitVec.ofNat 4 s.regs.fg.toNat, bg := s.regs.bg }
            w := w, h := h, row := 0, bank := Fin.ofNat 4 s.regs.yorg.toNat
            rowOff := s.regs.yorg.toNat / 4 * 160, k := 0, phase := .rd, hold := hold }
        pending := s.pending.tail }

/-- R97, R29 for `DRAW_MULTILEVEL`, mirrored or not: as for the bi-level draw, with two source pixels per byte and `FG`
unchecked. -/
def Obligations.DrawMultilevelAccepted : Prop :=
  ∀ (s : State) (invx : Bool), s.status.busy = false → LegalRequest False s →
    let w := min (s.regs.wbytes.toNat * 2 * s.regs.xscale.toNat) (320 - s.regs.xorg.toNat)
    let h := min (s.regs.hbytes.toNat * s.regs.yscale.toNat) (200 - s.regs.yorg.toNat)
    ∃ hold : Byte, exec (.drawMultilevel invx) s = .next
      { s with
        regs := { s.regs with cmd := if invx then 0x0006#16 else 0x0002#16 }
        status := { busy := decide (w ≠ 0 ∧ h ≠ 0), done := decide (w = 0 ∨ h = 0), err := .none, ovr := false }
        engine :=
          { latched :=
              { op := 2, invx := invx
                src := BitVec.ofNat 32
                  ((s.regs.srcHi.toNat * 2 ^ 16 + s.regs.srcLo.toNat) % 2 ^ s.platform.srcAddrW)
                wb := s.regs.wbytes, hb := s.regs.hbytes, x := s.regs.xorg, y := s.regs.yorg
                xs := s.regs.xscale, ys := s.regs.yscale
                fg := BitVec.ofNat 4 s.regs.fg.toNat, bg := s.regs.bg }
            w := w, h := h, row := 0, bank := Fin.ofNat 4 s.regs.yorg.toNat
            rowOff := s.regs.yorg.toNat / 4 * 160, k := 0, phase := .rd, hold := hold }
        pending := s.pending.tail }

/-- R70: a legal request with `WBYTES = 0` or `HBYTES = 0` is accepted, completes at once, and touches neither memory.
-/
def Obligations.EmptyDrawCompletesAtAcceptance : Prop :=
  ∀ (s : State) (i : Instr), s.status.busy = false →
    (i = .drawBilevel ∧ LegalRequest True s ∨ (∃ invx, i = .drawMultilevel invx) ∧ LegalRequest False s) →
    (s.regs.wbytes = 0 ∨ s.regs.hbytes = 0) →
    ∃ t, exec i s = .next t ∧ t.status = { busy := false, done := true, err := .none, ovr := false } ∧
      t.surface = s.surface ∧ t.source = s.source ∧ (t.engine.w = 0 ∨ t.engine.h = 0)

/-- R96, R99, R105: a `CMD` write with `BUSY = 0` whose checks fail reports the first of the four codes, clears `DONE`
and `OVR`, and changes nothing else but `CMD`. One whose checks pass reports no error. A draw is the write of its word.
-/
def Obligations.RejectionByPriority : Prop :=
  ∀ (s : State) (v : Word), s.status.busy = false →
    let rejected (code : ErrCode) : State :=
      { s with
        regs := { s.regs with cmd := v }
        status := { busy := false, done := false, err := code, ovr := false }
        pending := s.pending.tail }
    let badOp := v ≠ 0x0001#16 ∧ v ≠ 0x0002#16 ∧ v ≠ 0x0006#16
    let badOrigin := s.regs.xorg.toNat > 319 ∨ s.regs.yorg.toNat > 199
    let badScale := s.regs.xscale = 0 ∨ s.regs.yscale = 0
    let badColor := (v = 0x0001#16 ∧ s.regs.fg.toNat > 15) ∨
      ¬ (s.regs.bg.toNat ≤ 15 ∨ s.regs.bg = s.platform.transparent)
    (badOp → exec (.wr 0x00 v) s = .next (rejected .badOp)) ∧
    (¬ badOp → badOrigin → exec (.wr 0x00 v) s = .next (rejected .origin)) ∧
    (¬ badOp → ¬ badOrigin → badScale → exec (.wr 0x00 v) s = .next (rejected .scale)) ∧
    (¬ badOp → ¬ badOrigin → ¬ badScale → badColor → exec (.wr 0x00 v) s = .next (rejected .color)) ∧
    (¬ badOp → ¬ badOrigin → ¬ badScale → ¬ badColor →
      ∃ t, exec (.wr 0x00 v) s = .next t ∧ t.status.err = .none ∧ t.engine.latched.op = v.extractLsb' 0 2) ∧
    ∀ i, encode i = .command v → exec i s = exec (.wr 0x00 v) s

/-- R58, R100: any other command word written with `BUSY = 0` is rejected with `E_BAD_OP`, whatever the request holds,
both as a command word and as a write to `CMD`. -/
def Obligations.ReservedCommandRejected : Prop :=
  ∀ (s : State) (v : Word), v ≠ 0x0001#16 → v ≠ 0x0002#16 → v ≠ 0x0006#16 → s.status.busy = false →
    let rejected : State :=
      { s with
        regs := { s.regs with cmd := v }
        status := { busy := false, done := false, err := .badOp, ovr := false }
        pending := s.pending.tail }
    exec (.wr 0x00 v) s = .next rejected ∧
    (∀ rest, s.pending = .word (.command v) :: rest → step s = .next rejected)

/-- R98: a `CMD` write while `BUSY = 1` takes the value, sets `OVR` and changes nothing else. -/
def Obligations.CommandWhileBusyDropped : Prop :=
  ∀ (s : State) (v : Word), s.status.busy = true →
    let dropped : State :=
      { s with
        regs := { s.regs with cmd := v }
        status := { s.status with ovr := true }
        pending := s.pending.tail }
    exec (.wr 0x00 v) s = .next dropped ∧
    ∀ i, encode i = .command v → exec i s = .next dropped

/-- R16, R57: a write of a command word to `CMD` is the command, in every state. -/
def Obligations.CommandWriteIsTheCommand : Prop :=
  ∀ (s : State) (v : Word) (i : Instr), decode (.command v) = .ok i → exec (.wr 0x00 v) s = exec i s

/-- R95: only a `CMD` write starts the engine. If a step raises `BUSY`, the host wrote a legal command word to `CMD`,
and the request registers held a legal request. -/
def Obligations.OnlyCommandWritesRaiseBusy : Prop :=
  ∀ s t : State, step s = .next t → s.status.busy = false → t.status.busy = true →
    (t.regs.cmd = 0x0001#16 ∨ t.regs.cmd = 0x0002#16 ∨ t.regs.cmd = 0x0006#16) ∧
    LegalRequest (t.regs.cmd = 0x0001#16) s ∧
    ∃ rest, s.pending = .word (.command t.regs.cmd) :: rest ∨
      s.pending = .port 2 0x00 (some t.regs.cmd) :: rest ∨
      ∃ w, s.pending = .word (.stream w) :: rest ∧ decodeStream w = .ok (.wr 0x00 t.regs.cmd)

/-! ### Register accesses -/

/-- R15: a write to each of the ten request registers stores all 16 bits and changes nothing else, busy or not. -/
def Obligations.RequestRegisterWriteStores : Prop :=
  ∀ (s : State) (v : Word),
    exec (.wr 0x04 v) s = .next { s with regs := { s.regs with srcLo := v }, pending := s.pending.tail } ∧
    exec (.wr 0x06 v) s = .next { s with regs := { s.regs with srcHi := v }, pending := s.pending.tail } ∧
    exec (.wr 0x08 v) s = .next { s with regs := { s.regs with wbytes := v }, pending := s.pending.tail } ∧
    exec (.wr 0x0A v) s = .next { s with regs := { s.regs with hbytes := v }, pending := s.pending.tail } ∧
    exec (.wr 0x0C v) s = .next { s with regs := { s.regs with xorg := v }, pending := s.pending.tail } ∧
    exec (.wr 0x0E v) s = .next { s with regs := { s.regs with yorg := v }, pending := s.pending.tail } ∧
    exec (.wr 0x10 v) s = .next { s with regs := { s.regs with xscale := v }, pending := s.pending.tail } ∧
    exec (.wr 0x12 v) s = .next { s with regs := { s.regs with yscale := v }, pending := s.pending.tail } ∧
    exec (.wr 0x14 v) s = .next { s with regs := { s.regs with fg := v }, pending := s.pending.tail } ∧
    exec (.wr 0x16 v) s = .next { s with regs := { s.regs with bg := v }, pending := s.pending.tail }

/-- R17: a write to `STATUS` is ignored. R27: a read of a reserved offset returns 0x0000, and a write to one is
ignored. -/
def Obligations.StatusAndReservedOffsets : Prop :=
  ∀ (s : State) (v : Word) (offset : Nat),
    (offset = 0x02 ∨ offset = 0x18 ∨ offset = 0x1A ∨ offset = 0x1C ∨ offset = 0x1E →
      exec (.wr offset v) s = .next { s with pending := s.pending.tail }) ∧
    (offset = 0x18 ∨ offset = 0x1A ∨ offset = 0x1C ∨ offset = 0x1E →
      exec (.rd offset) s = .next { s with reads := s.reads ++ [0#16], pending := s.pending.tail })

/-- R14, R16, R17, R27, R46: a read of each of the sixteen registers records its value and changes nothing else. -/
def Obligations.RegisterReadRecords : Prop :=
  ∀ s : State,
    let recorded (v : Word) : State := { s with reads := s.reads ++ [v], pending := s.pending.tail }
    exec (.rd 0x00) s = .next (recorded s.regs.cmd) ∧
    exec (.rd 0x02) s = .next (recorded (statusWord s.status)) ∧
    exec (.rd 0x04) s = .next (recorded s.regs.srcLo) ∧
    exec (.rd 0x06) s = .next (recorded s.regs.srcHi) ∧
    exec (.rd 0x08) s = .next (recorded s.regs.wbytes) ∧
    exec (.rd 0x0A) s = .next (recorded s.regs.hbytes) ∧
    exec (.rd 0x0C) s = .next (recorded s.regs.xorg) ∧
    exec (.rd 0x0E) s = .next (recorded s.regs.yorg) ∧
    exec (.rd 0x10) s = .next (recorded s.regs.xscale) ∧
    exec (.rd 0x12) s = .next (recorded s.regs.yscale) ∧
    exec (.rd 0x14) s = .next (recorded s.regs.fg) ∧
    exec (.rd 0x16) s = .next (recorded s.regs.bg) ∧
    exec (.rd 0x18) s = .next (recorded 0) ∧
    exec (.rd 0x1A) s = .next (recorded 0) ∧
    exec (.rd 0x1C) s = .next (recorded 0) ∧
    exec (.rd 0x1E) s = .next (recorded 0)

/-- R17: where each field of `STATUS` stands in the value a read returns. -/
def Obligations.StatusWordFields : Prop :=
  ∀ st : Status,
    (statusWord st).getLsbD 0 = st.busy ∧
    (statusWord st).getLsbD 1 = st.done ∧
    (statusWord st).extractLsb' 2 3 =
      (match st.err with | .none => 0 | .badOp => 1 | .origin => 2 | .scale => 3 | .color => 4) ∧
    (statusWord st).getLsbD 5 = st.ovr ∧
    (statusWord st).extractLsb' 6 10 = 0

/-- R44, R54: a register access at an odd offset, outside the window, or of another width than 16 bits is refused. -/
def Obligations.UnsupportedRegisterAccessRefused : Prop :=
  ∀ (s : State) (offset : Nat) (v : Word),
    (offset % 2 = 1 ∨ offset > 0x1E →
      exec (.wr offset v) s = .refused .unsupportedRegisterAccess ∧
      exec (.rd offset) s = .refused .unsupportedRegisterAccess) ∧
    ∀ bytes value rest, bytes ≠ 2 → s.pending = .port bytes offset value :: rest → HostTurn s →
      step s = .refused .unsupportedRegisterAccess

/-- R60: a `wait` that reads `BUSY = 0` records that `STATUS` and ends, and one that reads `BUSY = 1` is made again. -/
def Obligations.WaitReadsStatus : Prop :=
  ∀ s : State,
    (s.status.busy = false →
      exec .wait s = .next
        { s with reads := s.reads ++ [statusWord s.status], pending := s.pending.tail }) ∧
    (s.status.busy = true → exec .wait s = .next s)

/-- R60, R126: with the engine running a command that meets the premise of R123, a `wait` at the head of the host's
accesses ends after finitely many steps, with the `STATUS` of the completed command, in every schedule. -/
def Obligations.WaitEnds : Prop :=
  ∀ (s : State) (rest : List HostEvent), s.Inv → s.status.busy = true → NoOverlap s.platform s.engine →
    s.pending = .word (.stream 0x00008002#32) :: rest →
    ∃ n t, core.run n s = .next t ∧ t.pending = rest ∧
      t.status = { s.status with busy := false, done := true } ∧
      t.reads = s.reads ++ [statusWord t.status] ∧ t.regs = s.regs

/-- R61: the accesses of `blit.bi` before its `CMD` write put its operands into the request registers. -/
def Obligations.BlitBiLoadsRequest : Prop :=
  ∀ (s : State) (addr : BitVec 32) (wb hb fg bg x y xs ys : Word), s.status.busy = false →
    s.pending = hostProgram (pseudoBlitBi addr wb hb fg bg x y xs ys) →
    core.run 10 s = .next
      { s with
        regs :=
          { cmd := s.regs.cmd, srcLo := addr.extractLsb' 0 16, srcHi := addr.extractLsb' 16 16
            wbytes := wb, hbytes := hb, xorg := x, yorg := y, xscale := xs, yscale := ys, fg := fg, bg := bg }
        pending := hostProgram [.wr 0x00 0x0001#16, .wait] }

/-- R61: the accesses of `blit.ml` before its `CMD` write put its operands into the request registers; `FG` keeps its
value. The command word has `invert_x` in bit 2. -/
def Obligations.BlitMlLoadsRequest : Prop :=
  ∀ (s : State) (addr : BitVec 32) (wb hb bg x y xs ys : Word) (invx : Bool), s.status.busy = false →
    s.pending = hostProgram (pseudoBlitMl addr wb hb bg x y xs ys invx) →
    core.run 9 s = .next
      { s with
        regs :=
          { cmd := s.regs.cmd, srcLo := addr.extractLsb' 0 16, srcHi := addr.extractLsb' 16 16
            wbytes := wb, hbytes := hb, xorg := x, yorg := y, xscale := xs, yscale := ys, fg := s.regs.fg, bg := bg }
        pending := hostProgram [.wr 0x00 (if invx then 0x0006#16 else 0x0002#16), .wait] }

/-! ### Reset -/

/-- R33, R117, R118, R119: a reset, at any time, sets every piece of the block's state to its reset value and leaves
both memories as they are. -/
def Obligations.ResetEvent : Prop :=
  ∀ (s : State) (rest : List HostEvent), s.pending = .reset :: rest → HostTurn s →
    ∃ t, step s = .next t ∧
      t.regs = { cmd := 0, srcLo := 0, srcHi := 0, wbytes := 0, hbytes := 0, xorg := 0, yorg := 0
                 xscale := 0, yscale := 0, fg := 0, bg := 0 } ∧
      statusWord t.status = 0 ∧
      t.engine.latched = { op := 0, invx := false, src := 0, wb := 0, hb := 0, x := 0, y := 0, xs := 0, ys := 0
                           fg := 0, bg := 0 } ∧
      t.engine.w = 0 ∧ t.engine.h = 0 ∧ t.engine.row = 0 ∧ t.engine.bank = 0 ∧ t.engine.rowOff = 0 ∧
      t.engine.k = 0 ∧ t.engine.hold = 0 ∧ t.engine.phase = .rd ∧
      t.surface = s.surface ∧ t.source = s.source ∧ t.platform = s.platform ∧ t.pending = rest

/-- R33 for the state right after reset, in which the first draw is rejected with `E_SCALE`. -/
def Obligations.FirstDrawAfterResetRejected : Prop :=
  ∀ i cmd, encode i = .command cmd →
    ∃ t, exec i State.reset = .next t ∧ statusWord t.status = 0x000C#16 ∧ t.regs.cmd = cmd ∧
      t.surface = [] ∧ t.engine = State.reset.engine

/-! ### The address translator and the geometry -/

/-- R65: every index of a pixel is in range, the map from destination bytes to indices is one-to-one, and every index
with a bank offset below 8000 is the image of one destination byte. -/
def Obligations.TranslatorRangeAndOneToOne : Prop :=
  ∀ p : Config.Platform, p.Legal →
    (∀ px py, px ≤ 319 → py ≤ 199 →
      (xlate p.pageSize px py).idx ≤ 3 * p.pageSize + 7999 ∧
      (xlate p.pageSize px py).idx < 4 * p.pageSize ∧
      (xlate p.pageSize px py).rowOffset + (xlate p.pageSize px py).bx ≤ 7999) ∧
    (∀ px py px' py', px ≤ 319 → py ≤ 199 → px' ≤ 319 → py' ≤ 199 →
      (xlate p.pageSize px py).idx = (xlate p.pageSize px' py').idx → py = py' ∧ px / 2 = px' / 2) ∧
    (∀ idx, idx < 4 * p.pageSize → idx % p.pageSize < 8000 →
      ∃ py bx, py ≤ 199 ∧ bx ≤ 159 ∧
        ∀ px, px / 2 = bx → (xlate p.pageSize px py).idx = idx ∧ (xlate p.pageSize px py).nib = px % 2) ∧
    (xlate p.pageSize 319 199).idx = 3 * p.pageSize + 7999

/-- R66: with `PAGE_SIZE = 8192` the sum has no carry into the bank field, and the index is the bank in the top two bits
and the offset in the low thirteen. For every `PAGE_SIZE` the sum is the definition. -/
def Obligations.TranslatorConcatenation : Prop :=
  (∀ pageSize px py : Nat,
    (xlate pageSize px py).idx = py % 4 * pageSize + (py / 4 * 160 + px / 2)) ∧
  ∀ px py : Nat, px ≤ 319 → py ≤ 199 →
    py / 4 * 160 + px / 2 ≤ 7999 ∧ (xlate 8192 px py).idx < 2 ^ 15 ∧ (xlate 8192 px py).idx / 8192 = py % 4 ∧
    BitVec.ofNat 15 (xlate 8192 px py).idx =
      (BitVec.ofNat 2 (py % 4) ++ BitVec.ofNat 13 (py / 4 * 160 + px / 2) : BitVec 15)

/-- R67: the incremental bank counters give the translator's bank and row offset before every output row. -/
def Obligations.IncrementalBankCounters : Prop :=
  ∀ (e : Engine) (y n : Nat), e.bank.val = y % 4 → e.rowOff = y / 4 * 160 →
    (bankStep^[n] e).bank.val = (y + n) % 4 ∧ (bankStep^[n] e).rowOff = (y + n) / 4 * 160

/-- R75: the span of a row and its split into a leading lone nibble, pairs and a trailing lone nibble. -/
def Obligations.SpanSplit : Prop :=
  ∀ e : Engine, 1 ≤ e.w → e.latched.x.toNat + e.w ≤ 320 →
    bfirst e = e.latched.x.toNat / 2 ∧ blast e = (e.latched.x.toNat + e.w - 1) / 2 ∧
    spanBytes e = blast e - bfirst e + 1 ∧ leadNibbles e = e.latched.x.toNat % 2 ∧
    trailNibbles e = 1 - (e.latched.x.toNat + e.w - 1) % 2 ∧
    1 ≤ spanBytes e ∧ spanBytes e ≤ 160 ∧
    spanBytes e = leadNibbles e + spanPairs e + trailNibbles e ∧
    e.w = 2 * spanPairs e + leadNibbles e + trailNibbles e ∧
    (leadNibbles e = 1 ↔ e.latched.x.toNat % 2 = 1) ∧
    (trailNibbles e = 1 ↔ (e.w - leadNibbles e) % 2 = 1) ∧
    (spanBytes e = 1 → leadNibbles e + trailNibbles e ≤ 1)

/-- R68, R69: the drawn sizes are the largest that fit the request and the screen, for every accepted command. -/
def Obligations.ClampedSizesAreLargest : Prop :=
  ∀ (s : State) (i : Instr), s.status.busy = false →
    (i = .drawBilevel ∧ LegalRequest True s ∨ (∃ invx, i = .drawMultilevel invx) ∧ LegalRequest False s) →
    ∃ t, exec i s = .next t ∧
      let pps := if i = .drawBilevel then 8 else 2
      let wfull := s.regs.wbytes.toNat * pps * s.regs.xscale.toNat
      let hfull := s.regs.hbytes.toNat * s.regs.yscale.toNat
      t.engine.latched.x = s.regs.xorg ∧ t.engine.latched.y = s.regs.yorg ∧
      t.engine.w = min wfull (320 - s.regs.xorg.toNat) ∧ t.engine.h = min hfull (200 - s.regs.yorg.toNat) ∧
      (∀ n, n ≤ t.engine.w ↔ n ≤ wfull ∧ s.regs.xorg.toNat + n ≤ 320) ∧
      (∀ n, n ≤ t.engine.h ↔ n ≤ hfull ∧ s.regs.yorg.toNat + n ≤ 200)

/-! ### Pixels -/

/-- R41, R72: a running command reads only source bytes that its request describes. -/
def Obligations.SourceReadsInsideBitmap : Prop :=
  ∀ (p : Config.Platform) (e : Engine) (i j : Nat), Running p e → i < e.h → j < e.w →
    let l := e.latched
    sourceRow l i < l.hb.toNat ∧ scanColumn l j < pixelsPerByte l.op * l.wb.toNat ∧
    (l.op = opBilevel →
      isSourceByte p l (sourceAddr p l (sourceRow l i) (scanColumn l j / 8)) = true) ∧
    (l.op = opMultilevel →
      isSourceByte p l (sourceAddr p l (sourceRow l i) (multilevelColumn l j / 2)) = true)

/-- R73: each source pixel covers the output block of its replication factors, and the block holds one value, for both
rasterizers and with or without mirror. -/
def Obligations.ScalingLaw : Prop :=
  ∀ (s : State) (sr sc a b : Nat), a < s.engine.latched.ys.toNat → b < s.engine.latched.xs.toNat →
    sourceRow s.engine.latched (sr * s.engine.latched.ys.toNat + a) = sr ∧
    scanColumn s.engine.latched (sc * s.engine.latched.xs.toNat + b) = sc ∧
    pix s (sr * s.engine.latched.ys.toNat + a) (sc * s.engine.latched.xs.toNat + b) =
      pix s (sr * s.engine.latched.ys.toNat) (sc * s.engine.latched.xs.toNat)

/-- R92: without width clamping, a mirrored multi-level draw shows in column `j` what the unmirrored one shows in column
`W - 1 - j`. -/
def Obligations.MirrorLaw : Prop :=
  ∀ (s s' : State) (i j : Nat), s.engine.latched.op = opMultilevel → s.engine.latched.invx = false →
    s' = { s with engine := { s.engine with latched := { s.engine.latched with invx := true } } } →
    1 ≤ s.engine.latched.xs.toNat →
    s.engine.w = 2 * s.engine.latched.wb.toNat * s.engine.latched.xs.toNat → j < s.engine.w →
    pix s' i j = pix s i (s.engine.w - 1 - j)

/-- R76, R77: the merged byte has each nibble's pixel value where the column is drawn and not `KEEP`, and the old nibble
bit for bit elsewhere. -/
def Obligations.MergeKeepsUndrawnNibbles : Prop :=
  ∀ (s : State) (i b pos : Nat) (old : Byte), pos < 2 →
    let x := s.engine.latched.x.toNat
    let px := 2 * b + pos
    (x ≤ px → px < x + s.engine.w →
      nibbleAt (merge s i b old) pos = (pix s i (px - x)).getD (nibbleAt old pos)) ∧
    (px < x ∨ x + s.engine.w ≤ px → nibbleAt (merge s i b old) pos = nibbleAt old pos)

/-! ### The engine -/

/-- R78 under the premise of R123, the `RD` half: `HOLD` takes the span byte at the index the translator gives, and
nothing else changes. -/
def Obligations.EngineReadStep : Prop :=
  ∀ s : State, s.Inv → s.status.busy = true → NoOverlap s.platform s.engine → s.engine.phase = .rd →
    let idx := (xlate s.platform.pageSize (2 * (bfirst s.engine + s.engine.k))
      (s.engine.latched.y.toNat + s.engine.row)).idx
    engineStep s = .next { s with engine := { s.engine with hold := memReadSurf s idx, phase := .wr } }

/-- R78, R79, R80 under the premise of R123, the `WR` half: the merged byte is written at the index the translator
gives and no other byte changes, which a source address that a window maps there sees too; the sequencer goes to the
next span byte, to the next row, or to completion. -/
def Obligations.EngineWriteStep : Prop :=
  ∀ s : State, s.Inv → s.status.busy = true → NoOverlap s.platform s.engine → s.engine.phase = .wr →
    let e := s.engine
    let b := bfirst e + e.k
    let py := e.latched.y.toNat + e.row
    ∃ t, engineStep s = .next t ∧
      (∀ a, memReadSurf t a =
        if a = (xlate s.platform.pageSize (2 * b) py).idx then merge s e.row b e.hold else memReadSurf s a) ∧
      (∀ a, memReadSrc t a =
        if aliasIndex s.platform a = some (xlate s.platform.pageSize (2 * b) py).idx then merge s e.row b e.hold
        else memReadSrc s a) ∧
      t.platform = s.platform ∧ t.regs = s.regs ∧ t.source = s.source ∧ t.pending = s.pending ∧
      t.schedule = s.schedule ∧ t.reads = s.reads ∧ t.memReads = s.memReads ∧
      t.engine.latched = e.latched ∧ t.engine.w = e.w ∧ t.engine.h = e.h ∧ t.engine.hold = e.hold ∧
      t.engine.phase = .rd ∧
      (e.k + 1 < spanBytes e →
        t.engine.k = e.k + 1 ∧ t.engine.row = e.row ∧ t.engine.bank = e.bank ∧ t.engine.rowOff = e.rowOff ∧
        t.status = s.status) ∧
      (¬ e.k + 1 < spanBytes e →
        t.engine.k = 0 ∧ t.engine.row = e.row + 1 ∧ t.engine.bank.val = (py + 1) % 4 ∧
        t.engine.rowOff = (py + 1) / 4 * 160 ∧
        (e.row + 1 < e.h → t.status = s.status) ∧
        (e.row + 1 = e.h → t.status = { s.status with busy := false, done := true }))

/-- R82, R80 under the premise of R123: from the start of a running command the engine completes after exactly `2 * NB
* H` steps, not before, and the surface is the stated function of the surface at acceptance: every pixel of the
rectangle takes its `Pix` value or is kept, every other byte and pixel is unchanged. -/
def Obligations.CommandIsSurfaceFunction : Prop :=
  ∀ s : State, s.Inv → s.status.busy = true → NoOverlap s.platform s.engine →
    s.engine.row = 0 → s.engine.k = 0 → s.engine.phase = .rd →
    let e := s.engine
    (∀ n, n < 2 * spanBytes e * e.h → ∃ u, engineRun n s = .next u ∧ u.status = s.status) ∧
    ∃ t, engineRun (2 * spanBytes e * e.h) s = .next t ∧
      t.status = { s.status with busy := false, done := true } ∧
      t.regs = s.regs ∧ t.source = s.source ∧ t.platform = s.platform ∧ t.pending = s.pending ∧
      t.schedule = s.schedule ∧ t.reads = s.reads ∧ t.memReads = s.memReads ∧
      (∀ i b, i < e.h → bfirst e ≤ b → b ≤ blast e →
        let idx := (xlate s.platform.pageSize (2 * b) (e.latched.y.toNat + i)).idx
        memReadSurf t idx = merge s i b (memReadSurf s idx)) ∧
      (∀ px py, px ≤ 319 → py ≤ 199 → inRect e px py →
        pixelOf t px py = (pix s (py - e.latched.y.toNat) (px - e.latched.x.toNat)).getD (pixelOf s px py)) ∧
      (∀ px py, px ≤ 319 → py ≤ 199 → ¬ inRect e px py → pixelOf t px py = pixelOf s px py) ∧
      (∀ idx, (∀ i b, i < e.h → bfirst e ≤ b → b ≤ blast e →
        idx ≠ (xlate s.platform.pageSize (2 * b) (e.latched.y.toNat + i)).idx) →
        memReadSurf t idx = memReadSurf s idx)

/-- R118 under the premise of R123: a command aborted after any number of engine steps leaves the result of a prefix of
its writes. After `n` steps exactly the span bytes whose write is among them hold their merged value, a byte read but
not yet written keeps its old one, and every other byte is as before. -/
def Obligations.AbortedCommandLeavesPrefix : Prop :=
  ∀ (s : State) (n : Nat), s.Inv → s.status.busy = true → NoOverlap s.platform s.engine →
    s.engine.row = 0 → s.engine.k = 0 → s.engine.phase = .rd →
    n ≤ 2 * spanBytes s.engine * s.engine.h →
    let e := s.engine
    let index (i b : Nat) : Nat := (xlate s.platform.pageSize (2 * b) (e.latched.y.toNat + i)).idx
    ∃ u, engineRun n s = .next u ∧ u.source = s.source ∧
      (∀ i b, i < e.h → bfirst e ≤ b → b ≤ blast e →
        memReadSurf u (index i b) =
          if 2 * (i * spanBytes e + (b - bfirst e) + 1) ≤ n then merge s i b (memReadSurf s (index i b))
          else memReadSurf s (index i b)) ∧
      (∀ idx, (∀ i b, i < e.h → bfirst e ≤ b → b ≤ blast e → idx ≠ index i b) →
        memReadSurf u idx = memReadSurf s idx)

/-- R84, R85, under the premise of R123 that no source byte is the same memory as a span byte: a `DRAW_BILEVEL` issued
with `BUSY = 0` and a legal, non-empty request is drawn whole by `2 * NB * H` engine steps: a 1 bit gives `FG`, a 0 bit
gives `BG` or, with the sentinel, keeps the pixel; every pixel outside the clamped rectangle is kept. -/
def Obligations.DrawBilevelDraws : Prop :=
  ∀ s : State, s.Inv → s.status.busy = false → LegalRequest True s → s.regs.wbytes ≠ 0 → s.regs.hbytes ≠ 0 →
    let r := s.regs
    let w := min (r.wbytes.toNat * 8 * r.xscale.toNat) (320 - r.xorg.toNat)
    let h := min (r.hbytes.toNat * r.yscale.toNat) (200 - r.yorg.toNat)
    let base := (r.srcHi.toNat * 2 ^ 16 + r.srcLo.toNat) % 2 ^ s.platform.srcAddrW
    let nb := (r.xorg.toNat + w - 1) / 2 - r.xorg.toNat / 2 + 1
    (∀ row j i b, row < r.hbytes.toNat → j < r.wbytes.toNat → i < h →
      r.xorg.toNat / 2 ≤ b → b ≤ (r.xorg.toNat + w - 1) / 2 →
      aliasIndex s.platform ((base + row * r.wbytes.toNat + j) % 2 ^ s.platform.srcAddrW) ≠
        some (xlate s.platform.pageSize (2 * b) (r.yorg.toNat + i)).idx) →
    ∃ u t, exec .drawBilevel s = .next u ∧ u.status.busy = true ∧ engineRun (2 * nb * h) u = .next t ∧
      t.status = { busy := false, done := true, err := .none, ovr := false } ∧
      t.regs = { r with cmd := 0x0001#16 } ∧ t.source = s.source ∧ t.platform = s.platform ∧
      t.pending = s.pending.tail ∧ t.schedule = s.schedule ∧ t.reads = s.reads ∧ t.memReads = s.memReads ∧
      ∀ px py, px ≤ 319 → py ≤ 199 →
        (r.xorg.toNat ≤ px ∧ px < r.xorg.toNat + w ∧ r.yorg.toNat ≤ py ∧ py < r.yorg.toNat + h →
          let sr := (py - r.yorg.toNat) / r.yscale.toNat
          let sc := (px - r.xorg.toNat) / r.xscale.toNat
          let byte := memReadSrc s ((base + sr * r.wbytes.toNat + sc / 8) % 2 ^ s.platform.srcAddrW)
          pixelOf t px py =
            if byte.getLsbD (7 - sc % 8) then BitVec.ofNat 4 r.fg.toNat
            else if r.bg = s.platform.transparent then pixelOf s px py
            else BitVec.ofNat 4 r.bg.toNat) ∧
        (¬ (r.xorg.toNat ≤ px ∧ px < r.xorg.toNat + w ∧ r.yorg.toNat ≤ py ∧ py < r.yorg.toNat + h) →
          pixelOf t px py = pixelOf s px py)

/-- R89, R90, R91, under the premise of R123 as above: a `DRAW_MULTILEVEL` issued with `BUSY = 0` and a legal,
non-empty request is drawn whole by `2 * NB * H` engine steps: a nonzero source nibble is copied, a zero one gives `BG`
or, with the sentinel, keeps the pixel; the mirrored draw starts at the last nibble of the full row; every pixel
outside the clamped rectangle is kept. -/
def Obligations.DrawMultilevelDraws : Prop :=
  ∀ (s : State) (invx : Bool), s.Inv → s.status.busy = false → LegalRequest False s →
    s.regs.wbytes ≠ 0 → s.regs.hbytes ≠ 0 →
    let r := s.regs
    let w := min (r.wbytes.toNat * 2 * r.xscale.toNat) (320 - r.xorg.toNat)
    let h := min (r.hbytes.toNat * r.yscale.toNat) (200 - r.yorg.toNat)
    let base := (r.srcHi.toNat * 2 ^ 16 + r.srcLo.toNat) % 2 ^ s.platform.srcAddrW
    let nb := (r.xorg.toNat + w - 1) / 2 - r.xorg.toNat / 2 + 1
    (∀ row j i b, row < r.hbytes.toNat → j < r.wbytes.toNat → i < h →
      r.xorg.toNat / 2 ≤ b → b ≤ (r.xorg.toNat + w - 1) / 2 →
      aliasIndex s.platform ((base + row * r.wbytes.toNat + j) % 2 ^ s.platform.srcAddrW) ≠
        some (xlate s.platform.pageSize (2 * b) (r.yorg.toNat + i)).idx) →
    ∃ u t, exec (.drawMultilevel invx) s = .next u ∧ u.status.busy = true ∧ engineRun (2 * nb * h) u = .next t ∧
      t.status = { busy := false, done := true, err := .none, ovr := false } ∧
      t.regs = { r with cmd := if invx then 0x0006#16 else 0x0002#16 } ∧
      t.source = s.source ∧ t.platform = s.platform ∧
      t.pending = s.pending.tail ∧ t.schedule = s.schedule ∧ t.reads = s.reads ∧ t.memReads = s.memReads ∧
      ∀ px py, px ≤ 319 → py ≤ 199 →
        (r.xorg.toNat ≤ px ∧ px < r.xorg.toNat + w ∧ r.yorg.toNat ≤ py ∧ py < r.yorg.toNat + h →
          let sr := (py - r.yorg.toNat) / r.yscale.toNat
          let sc := (px - r.xorg.toNat) / r.xscale.toNat
          let c := if invx then 2 * r.wbytes.toNat - 1 - sc else sc
          let byte := memReadSrc s ((base + sr * r.wbytes.toNat + c / 2) % 2 ^ s.platform.srcAddrW)
          let n : Nibble := if c % 2 = 0 then byte.extractLsb' 4 4 else byte.extractLsb' 0 4
          pixelOf t px py =
            if n ≠ 0 then n
            else if r.bg = s.platform.transparent then pixelOf s px py
            else BitVec.ofNat 4 r.bg.toNat) ∧
        (¬ (r.xorg.toNat ≤ px ∧ px < r.xorg.toNat + w ∧ r.yorg.toNat ≤ py ∧ py < r.yorg.toNat + h) →
          pixelOf t px py = pixelOf s px py)

/-- R94 under the premise of R123: an unscaled, unclamped, unmirrored multi-level draw with `BG = 0` at an even column
reads back byte for byte as its source. -/
def Obligations.MultilevelReadBack : Prop :=
  ∀ s : State, s.Inv → s.status.busy = true → NoOverlap s.platform s.engine →
    s.engine.row = 0 → s.engine.k = 0 → s.engine.phase = .rd →
    let l := s.engine.latched
    l.op = opMultilevel → l.invx = false → l.bg = 0 → l.xs = 1 → l.ys = 1 →
    l.x.toNat + 2 * l.wb.toNat ≤ 320 → l.y.toNat + l.hb.toNat ≤ 200 → l.x.toNat % 2 = 0 →
    ∃ t, engineRun (2 * spanBytes s.engine * s.engine.h) s = .next t ∧
      ∀ r j, r < l.hb.toNat → j < l.wb.toNat →
        memReadSurf t (xlate s.platform.pageSize (l.x.toNat + 2 * j) (l.y.toNat + r)).idx =
          memReadSrc s (sourceAddr s.platform l r j)

/-- R15, R29, R52: the running command never reads the request registers. An engine step from a state that differs only
in them answers the same, up to them. -/
def Obligations.EngineIgnoresRequestRegisters : Prop :=
  ∀ (s t : State) (g : Regs), engineStep s = .next t →
    engineStep { s with regs := g } = .next { t with regs := g }

/-- R81: the order of a command's accesses never depends on data. From two states with the same parameters, windows,
request, counters and status, whatever their surfaces, sources and `HOLD`, an engine step leads to the same counters
and status. -/
def Obligations.AccessOrderIndependentOfData : Prop :=
  ∀ s s' t : State, s'.platform.pageSize = s.platform.pageSize → s'.platform.srcAddrW = s.platform.srcAddrW →
    s'.platform.windows = s.platform.windows → s'.status = s.status →
    (∃ hold, s'.engine = { s.engine with hold := hold }) → engineStep s = .next t →
    ∃ t', engineStep s' = .next t' ∧ t'.status = t.status ∧ ∃ hold, t'.engine = { t.engine with hold := hold }

/-! ### Hazards and the memories -/

/-- R121: the bytes guarded by the surface hazard are exactly the span bytes of the running command. -/
def Obligations.SpanIndexIffSpanByte : Prop :=
  ∀ (p : Config.Platform) (e : Engine) (idx : Nat), p.Legal → Running p e →
    (isSpanIndex p e idx = true ↔
      ∃ i b, i < e.h ∧ bfirst e ≤ b ∧ b ≤ blast e ∧
        idx = (xlate p.pageSize (2 * b) (e.latched.y.toNat + i)).idx)

/-- R122: the bytes guarded by the source hazard are exactly the `WBYTES * HBYTES` source bytes of the request. -/
def Obligations.SourceByteIffInBitmap : Prop :=
  ∀ (p : Config.Platform) (l : Latched) (a : Nat), l.src.toNat < sourceSize p →
    (isSourceByte p l a = true ↔ ∃ r j, r < l.hb.toNat ∧ j < l.wb.toNat ∧ a = sourceAddr p l r j)

/-- R123: the surface bytes guarded as source bytes are exactly those that a window makes the same memory as one of the
`WBYTES * HBYTES` source bytes of the request. -/
def Obligations.SourceIndexIffAliasedBitmap : Prop :=
  ∀ (p : Config.Platform) (l : Latched) (idx : Nat), l.src.toNat < sourceSize p →
    (isSourceIndex p l idx = true ↔
      ∃ r j, r < l.hb.toNat ∧ j < l.wb.toNat ∧ aliasIndex p (sourceAddr p l r j) = some idx)

/-- R123: a command one of whose source bytes is the same memory as one of its span bytes has no result: its engine
stops with a fault. That the engine stops is the model's choice (log 10). -/
def Obligations.OverlappingCommandStops : Prop :=
  ∀ s : State, s.Inv → s.status.busy = true → ¬ NoOverlap s.platform s.engine → engineStep s = .fault .aliasHazard

/-- R123: a source address that a window maps onto the surface is that surface byte. The engine reads it there, and a
direct host read or write of it is the host's access to that surface byte, hazards included. -/
def Obligations.AliasedAccessIsSurfaceAccess : Prop :=
  ∀ (s : State) (a idx : Nat) (v : Byte) (rest : List HostEvent), s.Inv → aliasIndex s.platform a = some idx →
    (s.status.busy = true → s.schedule.head? = some .host) →
    idx < 4 * s.platform.pageSize ∧ memReadSrc s a = memReadSurf s idx ∧
    step { s with pending := .sourceRead a :: rest } = step { s with pending := .surfaceRead idx :: rest } ∧
    step { s with pending := .sourceWrite a v :: rest } = step { s with pending := .surfaceWrite idx v :: rest }

/-- R121, R122: a direct host read or write of a span byte while `BUSY = 1` is a `HAZARD`, and so is a write of a
surface byte that is a source byte of the running command. Every other surface byte that exists may be accessed freely,
a write changes that byte alone, and neither touches the block. -/
def Obligations.HostSurfaceAccess : Prop :=
  ∀ (s : State) (idx : Nat) (v : Byte) (rest : List HostEvent), s.Inv → HostTurn s →
    idx < 4 * s.platform.pageSize →
    let isSpan := s.status.busy = true ∧ ∃ i b, i < s.engine.h ∧ bfirst s.engine ≤ b ∧ b ≤ blast s.engine ∧
      idx = (xlate s.platform.pageSize (2 * b) (s.engine.latched.y.toNat + i)).idx
    let isSource := s.status.busy = true ∧ ∃ r j, r < s.engine.latched.hb.toNat ∧ j < s.engine.latched.wb.toNat ∧
      aliasIndex s.platform (sourceAddr s.platform s.engine.latched r j) = some idx
    (s.pending = .surfaceRead idx :: rest →
      (isSpan → step s = .fault .surfaceHazard) ∧
      (¬ isSpan → ∃ t, step s = .next t ∧ t.memReads = s.memReads ++ [memReadSurf s idx] ∧
        t.surface = s.surface ∧ t.source = s.source ∧ t.engine = s.engine ∧ t.status = s.status ∧
        t.regs = s.regs ∧ t.platform = s.platform ∧ t.reads = s.reads ∧ t.pending = rest)) ∧
    (s.pending = .surfaceWrite idx v :: rest →
      (isSpan → step s = .fault .surfaceHazard) ∧
      (¬ isSpan → isSource → step s = .fault .sourceHazard) ∧
      (¬ isSpan → ¬ isSource → ∃ t, step s = .next t ∧
        (∀ a, memReadSurf t a = if a = idx then v else memReadSurf s a) ∧
        t.source = s.source ∧ t.engine = s.engine ∧ t.status = s.status ∧ t.regs = s.regs ∧
        t.platform = s.platform ∧ t.reads = s.reads ∧ t.memReads = s.memReads ∧ t.pending = rest))

/-- R122 for a source byte that exists and that no window maps: a direct host write of a source byte of the running
command is a `HAZARD`; any other may be written, and that byte alone changes. A read is free. -/
def Obligations.HostSourceAccess : Prop :=
  ∀ (s : State) (a : Nat) (v : Byte) (rest : List HostEvent), s.Inv → HostTurn s →
    a < 2 ^ s.platform.srcAddrW → aliasIndex s.platform a = none →
    let guarded := s.status.busy = true ∧ ∃ r j, r < s.engine.latched.hb.toNat ∧ j < s.engine.latched.wb.toNat ∧
      a = (s.engine.latched.src.toNat + r * s.engine.latched.wb.toNat + j) % 2 ^ s.platform.srcAddrW
    (s.pending = .sourceRead a :: rest →
      ∃ t, step s = .next t ∧ t.memReads = s.memReads ++ [memReadSrc s a] ∧
        t.surface = s.surface ∧ t.source = s.source ∧ t.engine = s.engine ∧ t.status = s.status ∧
        t.regs = s.regs ∧ t.platform = s.platform ∧ t.reads = s.reads ∧ t.pending = rest) ∧
    (s.pending = .sourceWrite a v :: rest →
      (guarded → step s = .fault .sourceHazard) ∧
      (¬ guarded → ∃ t, step s = .next t ∧
        (∀ x, memReadSrc t x = if x = a then v else memReadSrc s x) ∧
        t.surface = s.surface ∧ t.engine = s.engine ∧ t.status = s.status ∧ t.regs = s.regs ∧
        t.platform = s.platform ∧ t.reads = s.reads ∧ t.memReads = s.memReads ∧ t.pending = rest))

/-- R48, R46: a step changes a surface byte only if the engine is running and the byte is a span byte of its command,
which holds pixels of the screen, or if the host itself writes that byte, directly or through a window. -/
def Obligations.OnlySpanBytesChange : Prop :=
  ∀ (s t : State) (a : Nat), s.Inv → step s = .next t → memReadSurf t a ≠ memReadSurf s a →
    (s.status.busy = true ∧ ∃ px py, px ≤ 319 ∧ py ≤ 199 ∧ a = (xlate s.platform.pageSize px py).idx ∧
      s.engine.latched.y.toNat ≤ py ∧ py < s.engine.latched.y.toNat + s.engine.h ∧
      bfirst s.engine ≤ px / 2 ∧ px / 2 ≤ blast s.engine) ∨
    ∃ v rest, s.pending = .surfaceWrite a v :: rest ∨
      ∃ x, aliasIndex s.platform x = some a ∧ s.pending = .sourceWrite x v :: rest

/-- R34, R46: the block never writes through the source port, and no step changes the parameters or the windows. A
source byte that no window maps changes only by a host write of it. -/
def Obligations.SourceIsReadOnlyToTheBlock : Prop :=
  ∀ s t : State, step s = .next t →
    t.platform = s.platform ∧
    (t.source = s.source ∨ ∃ a v rest, s.pending = .sourceWrite a v :: rest ∧ aliasIndex s.platform a = none)

/-! ### The invariant -/

/-- The invariant holds of the state right after reset. -/
def Obligations.InvariantAtReset : Prop := State.reset.Inv

/-- Every step keeps the invariant: legal parameters, canonical memories inside their spaces with no source byte listed
that a window maps, a legal `STATUS` (R17) and, while `BUSY = 1`, counters that agree with the latched request (R30,
R31, R67). -/
def Obligations.StepKeepsInvariant : Prop :=
  ∀ s t : State, s.Inv → step s = .next t → t.Inv

/-- R104 under the premise of R123: once accepted, a command raises no exception. In a state of the invariant the
engine's step always answers. -/
def Obligations.RunningEngineNeverFaults : Prop :=
  ∀ s : State, s.Inv → NoOverlap s.platform s.engine → EngineTurn s → ∃ t, step s = .next t
end

