-- ==== Sys2Proof/Laws/Memory.lean ====
section
/-! SUPPORT. The laws of a memory: what a read gives after a write, and that writes keep the canonical form, in which
equal contents are equal data. -/

namespace Sys2Proof.Machine

variable {d : Nat → Byte}

@[simp] theorem Memory.read_nil (a : Nat) : Memory.read d [] a = d a := rfl

@[simp] theorem Memory.read_cons (b : Nat) (v : Byte) (rest : Memory) (a : Nat) :
    Memory.read d ((b, v) :: rest) a = if b = a then v else Memory.read d rest a := rfl

/-- The canonical form from a lower bound is also the form from a smaller one. -/
theorem Memory.wfFrom_mono {lo lo' : Nat} {m : Memory} (h : Memory.wfFrom d lo m = true) (hl : lo' ≤ lo) :
    Memory.wfFrom d lo' m = true := by
  cases m with
  | nil => rfl
  | cons c rest =>
    simp only [Memory.wfFrom, Bool.and_eq_true, decide_eq_true_eq] at h ⊢
    exact ⟨⟨by omega, h.1.2⟩, h.2⟩

/-- An address below every listed one reads as unlisted. -/
theorem Memory.read_of_lt {lo : Nat} {m : Memory} (h : Memory.wfFrom d lo m = true) {a : Nat} (ha : a < lo) :
    Memory.read d m a = d a := by
  induction m generalizing lo with
  | nil => rfl
  | cons c rest ih =>
    obtain ⟨b, v⟩ := c
    simp only [Memory.wfFrom, Bool.and_eq_true, decide_eq_true_eq] at h
    rw [Memory.read_cons, if_neg (by omega), ih h.2 (by omega)]

/-- A read after a write: the written byte at its address, the old one elsewhere. -/
theorem Memory.read_write {lo : Nat} {m : Memory} (h : Memory.wfFrom d lo m = true) (a : Nat) (v : Byte) (x : Nat) :
    Memory.read d (Memory.write d m a v) x = if a = x then v else Memory.read d m x := by
  induction m generalizing lo with
  | nil => by_cases hv : v = d a <;> by_cases hx : a = x <;> simp_all [Memory.write]
  | cons c rest ih =>
    obtain ⟨b, u⟩ := c
    simp only [Memory.wfFrom, Bool.and_eq_true, decide_eq_true_eq] at h
    have low : ∀ y, y ≤ b → Memory.read d rest y = d y := fun y hy => Memory.read_of_lt h.2 (by omega)
    unfold Memory.write
    split
    · by_cases hv : v = d a <;> by_cases hx : a = x
      · subst hx; simp [hv, low a (by omega), show b ≠ a by omega]
      · simp [hv, hx]
      · subst hx; simp [hv]
      · simp [hv, hx]
    · split
      · subst a
        by_cases hv : v = d b <;> by_cases hx : b = x
        · subst hx; simp [hv, low b (by omega)]
        · simp [hv, hx]
        · subst hx; simp [hv]
        · simp [hv, hx]
      · rw [Memory.read_cons, ih h.2, Memory.read_cons]
        by_cases hx : a = x <;> simp [hx]
        omega

/-- A write keeps the canonical form. -/
theorem Memory.wfFrom_write {lo : Nat} {m : Memory} (h : Memory.wfFrom d lo m = true) (a : Nat) (v : Byte)
    (ha : lo ≤ a) : Memory.wfFrom d lo (Memory.write d m a v) = true := by
  induction m generalizing lo with
  | nil => by_cases hv : v = d a <;> simp [Memory.write, Memory.wfFrom, hv, ha]
  | cons c rest ih =>
    obtain ⟨b, u⟩ := c
    simp only [Memory.wfFrom, Bool.and_eq_true, decide_eq_true_eq] at h
    unfold Memory.write
    split
    · by_cases hv : v = d a
      · simp [Memory.wfFrom, hv, h.1.1, h.1.2, h.2]
      · have : a + 1 ≤ b := by omega
        simp [Memory.wfFrom, hv, ha, h.1.2, h.2, this]
    · split
      · subst a
        by_cases hv : v = d b
        · simpa [hv] using Memory.wfFrom_mono h.2 (by omega)
        · simp [Memory.wfFrom, hv, ha, h.2]
      · simp [Memory.wfFrom, h.1.1, h.1.2, ih h.2 (by omega)]

theorem Memory.wf_write {m : Memory} (h : Memory.wf d m = true) (a : Nat) (v : Byte) :
    Memory.wf d (Memory.write d m a v) = true := Memory.wfFrom_write h a v (Nat.zero_le a)

@[simp] theorem Memory.wf_nil : Memory.wf d [] = true := rfl

@[simp] theorem Memory.below_nil (size : Nat) : Memory.below size [] = true := rfl

/-- A write inside a space keeps the memory inside it. -/
theorem Memory.below_write {size : Nat} {m : Memory} (h : Memory.below size m = true) {a : Nat} (v : Byte)
    (ha : a < size) : Memory.below size (Memory.write d m a v) = true := by
  induction m with
  | nil => by_cases hv : v = d a <;> simp [Memory.write, Memory.below, hv, ha]
  | cons c rest ih =>
    obtain ⟨b, u⟩ := c
    simp only [Memory.below, List.all_cons, Bool.and_eq_true, decide_eq_true_eq] at h ih ⊢
    unfold Memory.write
    split
    · split <;> simp [ha, h.1, h.2]
    · split
      · split <;> simp [ha, h.2]
      · simp only [List.all_cons, h.1, decide_true, Bool.true_and]
        exact ih h.2

/-- Canonical memories that read alike are the same list. -/
theorem Memory.ext_of_read {lo : Nat} {m m' : Memory} (h : Memory.wfFrom d lo m = true)
    (h' : Memory.wfFrom d lo m' = true) (hr : ∀ a, Memory.read d m a = Memory.read d m' a) : m = m' := by
  induction m generalizing lo m' with
  | nil =>
    cases m' with
    | nil => rfl
    | cons c rest =>
      obtain ⟨b, u⟩ := c
      simp only [Memory.wfFrom, Bool.and_eq_true, decide_eq_true_eq] at h'
      exact absurd (by simpa using (hr b).symm) h'.1.2
  | cons c rest ih =>
    obtain ⟨b, u⟩ := c
    simp only [Memory.wfFrom, Bool.and_eq_true, decide_eq_true_eq] at h
    cases m' with
    | nil => exact absurd (by simpa using hr b) h.1.2
    | cons c' rest' =>
      obtain ⟨b', u'⟩ := c'
      simp only [Memory.wfFrom, Bool.and_eq_true, decide_eq_true_eq] at h'
      have lowL : ∀ y, y ≤ b → Memory.read d rest y = d y := fun y hy => Memory.read_of_lt h.2 (by omega)
      have lowR : ∀ y, y ≤ b' → Memory.read d rest' y = d y := fun y hy => Memory.read_of_lt h'.2 (by omega)
      have hb : b = b' := by
        rcases Nat.lt_trichotomy b b' with hlt | heq | hgt
        · have := hr b
          rw [Memory.read_cons, Memory.read_cons, if_pos rfl, if_neg (by omega), lowR b (by omega)] at this
          exact absurd this h.1.2
        · exact heq
        · have := hr b'
          rw [Memory.read_cons, Memory.read_cons, if_pos rfl, if_neg (by omega), lowL b' (by omega)] at this
          exact absurd this.symm h'.1.2
      subst hb
      have hu : u = u' := by simpa using hr b
      subst hu
      rw [ih h.2 h'.2 fun a => ?_]
      by_cases ha : a ≤ b
      · rw [lowL a ha, lowR a ha]
      · simpa [show b ≠ a by omega] using hr a

theorem Memory.eq_of_read {m m' : Memory} (h : Memory.wf d m = true) (h' : Memory.wf d m' = true)
    (hr : ∀ a, Memory.read d m a = Memory.read d m' a) : m = m' := Memory.ext_of_read h h' hr

/-- The surface after one engine or host write reads as before at every other index. -/
theorem memReadSurf_memWriteSurf {s : State} (h : Memory.wf (surfaceUnlisted s.platform) s.surface = true)
    (idx : Nat) (v : Byte) (x : Nat) :
    memReadSurf (memWriteSurf s idx v) x = if idx = x then v else memReadSurf s x := Memory.read_write h idx v x

/-- The source read through a window is the surface (R123). -/
theorem memReadSrc_of_alias {s : State} {a idx : Nat} (h : aliasIndex s.platform a = some idx) :
    memReadSrc s a = memReadSurf s idx := by
  simp [memReadSrc, h]

/-- The source read outside every window is the source memory. -/
theorem memReadSrc_of_none {s : State} {a : Nat} (h : aliasIndex s.platform a = none) :
    memReadSrc s a = Memory.read (sourceUnlisted s.platform) s.source a := by
  simp [memReadSrc, h]

/-- The source after a surface write: a byte that a window maps there reads as written, every other one as before. -/
theorem memReadSrc_memWriteSurf {s : State} (h : Memory.wf (surfaceUnlisted s.platform) s.surface = true)
    (idx : Nat) (v : Byte) (x : Nat) :
    memReadSrc (memWriteSurf s idx v) x = if aliasIndex s.platform x = some idx then v else memReadSrc s x := by
  have hp : (memWriteSurf s idx v).platform = s.platform := rfl
  cases hx : aliasIndex s.platform x with
  | none => simp [memReadSrc, hx, hp]; rfl
  | some k => simp [memReadSrc, hx, hp, memReadSurf_memWriteSurf h, eq_comm]

/-- The source after a host write outside every window reads as before at every other address. -/
theorem memReadSrc_hostWriteSrc {s : State} (h : Memory.wf (sourceUnlisted s.platform) s.source = true)
    {a : Nat} (ha : aliasIndex s.platform a = none) (v : Byte) (x : Nat) :
    memReadSrc (hostWriteSrc s a v) x = if a = x then v else memReadSrc s x := by
  have hw : hostWriteSrc s a v = { s with source := Memory.write (sourceUnlisted s.platform) s.source a v } := by
    simp [hostWriteSrc, ha]
  rw [hw]
  cases hx : aliasIndex s.platform x with
  | none => simpa [memReadSrc, hx] using Memory.read_write h a v x
  | some k =>
    have : a ≠ x := fun e => by subst e; simp [ha] at hx
    simp [memReadSrc, hx, this]
    rfl

/-- A write of an address that no window maps keeps the memory clear of the windows. -/
theorem Memory.unaliased_write {p : Config.Platform} {m : Memory} (h : Memory.unaliased p m = true) {a : Nat} (v : Byte)
    (ha : aliasIndex p a = none) : Memory.unaliased p (Memory.write d m a v) = true := by
  induction m with
  | nil => by_cases hv : v = d a <;> simp [Memory.write, Memory.unaliased, hv, ha]
  | cons c rest ih =>
    obtain ⟨b, u⟩ := c
    simp only [Memory.unaliased, List.all_cons, Bool.and_eq_true] at h ih ⊢
    unfold Memory.write
    split
    · split <;> simp [ha, h.1, h.2]
    · split
      · split <;> simp [ha, h.2]
      · simp only [List.all_cons, h.1, Bool.true_and]
        exact ih h.2

end Sys2Proof.Machine
end

