-- ==== Sys2Proof/Laws/State.lean ====
section
/-! SUPPORT. One lemma per field of State per update: what each named operation makes of each field, so that no proof
unfolds a record update. Fields an operation changes in a way that needs a case split are left to Laws/Ops.lean. -/

namespace Sys2Proof.Machine

/-! ### memWriteSurf -/

@[simp] theorem memWriteSurf_platform (idx : Nat) (v : Byte) (s : State) :
    (memWriteSurf s idx v).platform = s.platform := rfl
@[simp] theorem memWriteSurf_regs (idx : Nat) (v : Byte) (s : State) : (memWriteSurf s idx v).regs = s.regs := rfl
@[simp] theorem memWriteSurf_status (idx : Nat) (v : Byte) (s : State) : (memWriteSurf s idx v).status = s.status := rfl
@[simp] theorem memWriteSurf_engine (idx : Nat) (v : Byte) (s : State) : (memWriteSurf s idx v).engine = s.engine := rfl
@[simp] theorem memWriteSurf_surface (idx : Nat) (v : Byte) (s : State) :
    (memWriteSurf s idx v).surface = Memory.write (surfaceUnlisted s.platform) s.surface idx v := rfl
@[simp] theorem memWriteSurf_source (idx : Nat) (v : Byte) (s : State) : (memWriteSurf s idx v).source = s.source := rfl
@[simp] theorem memWriteSurf_pending (idx : Nat) (v : Byte) (s : State) :
    (memWriteSurf s idx v).pending = s.pending := rfl
@[simp] theorem memWriteSurf_schedule (idx : Nat) (v : Byte) (s : State) :
    (memWriteSurf s idx v).schedule = s.schedule := rfl
@[simp] theorem memWriteSurf_reads (idx : Nat) (v : Byte) (s : State) : (memWriteSurf s idx v).reads = s.reads := rfl
@[simp] theorem memWriteSurf_memReads (idx : Nat) (v : Byte) (s : State) :
    (memWriteSurf s idx v).memReads = s.memReads := rfl

/-! ### hostWriteSrc -/

/-- A write through a window is a write of the surface. -/
theorem hostWriteSrc_of_alias {a idx : Nat} {s : State} (h : aliasIndex s.platform a = some idx) (v : Byte) :
    hostWriteSrc s a v = memWriteSurf s idx v := by
  simp [hostWriteSrc, h]

/-- A write outside every window is a write of the source memory. -/
theorem hostWriteSrc_of_none {a : Nat} {s : State} (h : aliasIndex s.platform a = none) (v : Byte) :
    hostWriteSrc s a v = { s with source := Memory.write (sourceUnlisted s.platform) s.source a v } := by
  simp [hostWriteSrc, h]

@[simp] theorem hostWriteSrc_platform (a : Nat) (v : Byte) (s : State) :
    (hostWriteSrc s a v).platform = s.platform := by
  unfold hostWriteSrc
  split <;> rfl
@[simp] theorem hostWriteSrc_regs (a : Nat) (v : Byte) (s : State) :
    (hostWriteSrc s a v).regs = s.regs := by
  unfold hostWriteSrc
  split <;> rfl
@[simp] theorem hostWriteSrc_status (a : Nat) (v : Byte) (s : State) :
    (hostWriteSrc s a v).status = s.status := by
  unfold hostWriteSrc
  split <;> rfl
@[simp] theorem hostWriteSrc_engine (a : Nat) (v : Byte) (s : State) :
    (hostWriteSrc s a v).engine = s.engine := by
  unfold hostWriteSrc
  split <;> rfl
@[simp] theorem hostWriteSrc_pending (a : Nat) (v : Byte) (s : State) :
    (hostWriteSrc s a v).pending = s.pending := by
  unfold hostWriteSrc
  split <;> rfl
@[simp] theorem hostWriteSrc_schedule (a : Nat) (v : Byte) (s : State) :
    (hostWriteSrc s a v).schedule = s.schedule := by
  unfold hostWriteSrc
  split <;> rfl
@[simp] theorem hostWriteSrc_reads (a : Nat) (v : Byte) (s : State) :
    (hostWriteSrc s a v).reads = s.reads := by
  unfold hostWriteSrc
  split <;> rfl
@[simp] theorem hostWriteSrc_memReads (a : Nat) (v : Byte) (s : State) :
    (hostWriteSrc s a v).memReads = s.memReads := by
  unfold hostWriteSrc
  split <;> rfl

/-! ### advance -/

@[simp] theorem advance_platform (s : State) : (advance s).platform = s.platform := rfl
@[simp] theorem advance_regs (s : State) : (advance s).regs = s.regs := rfl
@[simp] theorem advance_status (s : State) : (advance s).status = s.status := rfl
@[simp] theorem advance_engine (s : State) : (advance s).engine = s.engine := rfl
@[simp] theorem advance_surface (s : State) : (advance s).surface = s.surface := rfl
@[simp] theorem advance_source (s : State) : (advance s).source = s.source := rfl
@[simp] theorem advance_pending (s : State) : (advance s).pending = s.pending.tail := rfl
@[simp] theorem advance_schedule (s : State) : (advance s).schedule = s.schedule := rfl
@[simp] theorem advance_reads (s : State) : (advance s).reads = s.reads := rfl
@[simp] theorem advance_memReads (s : State) : (advance s).memReads = s.memReads := rfl

/-! ### record -/

@[simp] theorem record_platform (v : Word) (s : State) : (record v s).platform = s.platform := rfl
@[simp] theorem record_regs (v : Word) (s : State) : (record v s).regs = s.regs := rfl
@[simp] theorem record_status (v : Word) (s : State) : (record v s).status = s.status := rfl
@[simp] theorem record_engine (v : Word) (s : State) : (record v s).engine = s.engine := rfl
@[simp] theorem record_surface (v : Word) (s : State) : (record v s).surface = s.surface := rfl
@[simp] theorem record_source (v : Word) (s : State) : (record v s).source = s.source := rfl
@[simp] theorem record_pending (v : Word) (s : State) : (record v s).pending = s.pending := rfl
@[simp] theorem record_schedule (v : Word) (s : State) : (record v s).schedule = s.schedule := rfl
@[simp] theorem record_reads (v : Word) (s : State) : (record v s).reads = s.reads ++ [v] := rfl
@[simp] theorem record_memReads (v : Word) (s : State) : (record v s).memReads = s.memReads := rfl

/-! ### recordByte -/

@[simp] theorem recordByte_platform (v : Byte) (s : State) : (recordByte v s).platform = s.platform := rfl
@[simp] theorem recordByte_regs (v : Byte) (s : State) : (recordByte v s).regs = s.regs := rfl
@[simp] theorem recordByte_status (v : Byte) (s : State) : (recordByte v s).status = s.status := rfl
@[simp] theorem recordByte_engine (v : Byte) (s : State) : (recordByte v s).engine = s.engine := rfl
@[simp] theorem recordByte_surface (v : Byte) (s : State) : (recordByte v s).surface = s.surface := rfl
@[simp] theorem recordByte_source (v : Byte) (s : State) : (recordByte v s).source = s.source := rfl
@[simp] theorem recordByte_pending (v : Byte) (s : State) : (recordByte v s).pending = s.pending := rfl
@[simp] theorem recordByte_schedule (v : Byte) (s : State) : (recordByte v s).schedule = s.schedule := rfl
@[simp] theorem recordByte_reads (v : Byte) (s : State) : (recordByte v s).reads = s.reads := rfl
@[simp] theorem recordByte_memReads (v : Byte) (s : State) : (recordByte v s).memReads = s.memReads ++ [v] := rfl

/-! ### clearResult -/

@[simp] theorem clearResult_platform (s : State) : (clearResult s).platform = s.platform := rfl
@[simp] theorem clearResult_regs (s : State) : (clearResult s).regs = s.regs := rfl
@[simp] theorem clearResult_status (s : State) :
    (clearResult s).status = { s.status with done := false, err := .none, ovr := false } := rfl
@[simp] theorem clearResult_engine (s : State) : (clearResult s).engine = s.engine := rfl
@[simp] theorem clearResult_surface (s : State) : (clearResult s).surface = s.surface := rfl
@[simp] theorem clearResult_source (s : State) : (clearResult s).source = s.source := rfl
@[simp] theorem clearResult_pending (s : State) : (clearResult s).pending = s.pending := rfl
@[simp] theorem clearResult_schedule (s : State) : (clearResult s).schedule = s.schedule := rfl
@[simp] theorem clearResult_reads (s : State) : (clearResult s).reads = s.reads := rfl
@[simp] theorem clearResult_memReads (s : State) : (clearResult s).memReads = s.memReads := rfl

/-! ### reject -/

@[simp] theorem reject_platform (code : ErrCode) (s : State) : (reject code s).platform = s.platform := rfl
@[simp] theorem reject_regs (code : ErrCode) (s : State) : (reject code s).regs = s.regs := rfl
@[simp] theorem reject_status (code : ErrCode) (s : State) :
    (reject code s).status = { s.status with err := code } := rfl
@[simp] theorem reject_engine (code : ErrCode) (s : State) : (reject code s).engine = s.engine := rfl
@[simp] theorem reject_surface (code : ErrCode) (s : State) : (reject code s).surface = s.surface := rfl
@[simp] theorem reject_source (code : ErrCode) (s : State) : (reject code s).source = s.source := rfl
@[simp] theorem reject_pending (code : ErrCode) (s : State) : (reject code s).pending = s.pending := rfl
@[simp] theorem reject_schedule (code : ErrCode) (s : State) : (reject code s).schedule = s.schedule := rfl
@[simp] theorem reject_reads (code : ErrCode) (s : State) : (reject code s).reads = s.reads := rfl
@[simp] theorem reject_memReads (code : ErrCode) (s : State) : (reject code s).memReads = s.memReads := rfl

/-! ### overrun -/

@[simp] theorem overrun_platform (s : State) : (overrun s).platform = s.platform := rfl
@[simp] theorem overrun_regs (s : State) : (overrun s).regs = s.regs := rfl
@[simp] theorem overrun_status (s : State) : (overrun s).status = { s.status with ovr := true } := rfl
@[simp] theorem overrun_engine (s : State) : (overrun s).engine = s.engine := rfl
@[simp] theorem overrun_surface (s : State) : (overrun s).surface = s.surface := rfl
@[simp] theorem overrun_source (s : State) : (overrun s).source = s.source := rfl
@[simp] theorem overrun_pending (s : State) : (overrun s).pending = s.pending := rfl
@[simp] theorem overrun_schedule (s : State) : (overrun s).schedule = s.schedule := rfl
@[simp] theorem overrun_reads (s : State) : (overrun s).reads = s.reads := rfl
@[simp] theorem overrun_memReads (s : State) : (overrun s).memReads = s.memReads := rfl

/-! ### applyReset -/

@[simp] theorem applyReset_platform (s : State) : (applyReset s).platform = s.platform := rfl
@[simp] theorem applyReset_regs (s : State) : (applyReset s).regs = Regs.reset := rfl
@[simp] theorem applyReset_status (s : State) : (applyReset s).status = Status.reset := rfl
@[simp] theorem applyReset_engine (s : State) : (applyReset s).engine = Engine.reset := rfl
@[simp] theorem applyReset_surface (s : State) : (applyReset s).surface = s.surface := rfl
@[simp] theorem applyReset_source (s : State) : (applyReset s).source = s.source := rfl
@[simp] theorem applyReset_pending (s : State) : (applyReset s).pending = s.pending := rfl
@[simp] theorem applyReset_schedule (s : State) : (applyReset s).schedule = s.schedule := rfl
@[simp] theorem applyReset_reads (s : State) : (applyReset s).reads = s.reads := rfl
@[simp] theorem applyReset_memReads (s : State) : (applyReset s).memReads = s.memReads := rfl

/-! ### accept -/

@[simp] theorem accept_platform (v : Word) (s : State) : (accept v s).platform = s.platform := rfl
@[simp] theorem accept_regs (v : Word) (s : State) : (accept v s).regs = s.regs := rfl
@[simp] theorem accept_engine (v : Word) (s : State) : (accept v s).engine = acceptedEngine v s := rfl
@[simp] theorem accept_surface (v : Word) (s : State) : (accept v s).surface = s.surface := rfl
@[simp] theorem accept_source (v : Word) (s : State) : (accept v s).source = s.source := rfl
@[simp] theorem accept_pending (v : Word) (s : State) : (accept v s).pending = s.pending := rfl
@[simp] theorem accept_schedule (v : Word) (s : State) : (accept v s).schedule = s.schedule := rfl
@[simp] theorem accept_reads (v : Word) (s : State) : (accept v s).reads = s.reads := rfl
@[simp] theorem accept_memReads (v : Word) (s : State) : (accept v s).memReads = s.memReads := rfl

/-! ### complete -/

@[simp] theorem complete_platform (s : State) : (complete s).platform = s.platform := rfl
@[simp] theorem complete_regs (s : State) : (complete s).regs = s.regs := rfl
@[simp] theorem complete_status (s : State) : (complete s).status = setComplete s.status := rfl
@[simp] theorem complete_engine (s : State) : (complete s).engine = s.engine := rfl
@[simp] theorem complete_surface (s : State) : (complete s).surface = s.surface := rfl
@[simp] theorem complete_source (s : State) : (complete s).source = s.source := rfl
@[simp] theorem complete_pending (s : State) : (complete s).pending = s.pending := rfl
@[simp] theorem complete_schedule (s : State) : (complete s).schedule = s.schedule := rfl
@[simp] theorem complete_reads (s : State) : (complete s).reads = s.reads := rfl
@[simp] theorem complete_memReads (s : State) : (complete s).memReads = s.memReads := rfl

/-! ### engineRead -/

@[simp] theorem engineRead_platform (s : State) : (engineRead s).platform = s.platform := rfl
@[simp] theorem engineRead_regs (s : State) : (engineRead s).regs = s.regs := rfl
@[simp] theorem engineRead_status (s : State) : (engineRead s).status = s.status := rfl
@[simp] theorem engineRead_engine (s : State) :
    (engineRead s).engine = { s.engine with hold := memReadSurf s (currentIndex s), phase := .wr } := rfl
@[simp] theorem engineRead_surface (s : State) : (engineRead s).surface = s.surface := rfl
@[simp] theorem engineRead_source (s : State) : (engineRead s).source = s.source := rfl
@[simp] theorem engineRead_pending (s : State) : (engineRead s).pending = s.pending := rfl
@[simp] theorem engineRead_schedule (s : State) : (engineRead s).schedule = s.schedule := rfl
@[simp] theorem engineRead_reads (s : State) : (engineRead s).reads = s.reads := rfl
@[simp] theorem engineRead_memReads (s : State) : (engineRead s).memReads = s.memReads := rfl

/-! ### rowStep -/

@[simp] theorem rowStep_platform (s : State) :
    (rowStep s).platform = s.platform := by
  unfold rowStep; dsimp only; split <;> rfl
@[simp] theorem rowStep_regs (s : State) : (rowStep s).regs = s.regs := by
  unfold rowStep; dsimp only; split <;> rfl
@[simp] theorem rowStep_engine (s : State) :
    (rowStep s).engine = bankStep { s.engine with k := 0, row := s.engine.row + 1 } := by
  unfold rowStep; dsimp only; split <;> rfl
@[simp] theorem rowStep_surface (s : State) :
    (rowStep s).surface = s.surface := by
  unfold rowStep; dsimp only; split <;> rfl
@[simp] theorem rowStep_source (s : State) :
    (rowStep s).source = s.source := by
  unfold rowStep; dsimp only; split <;> rfl
@[simp] theorem rowStep_pending (s : State) :
    (rowStep s).pending = s.pending := by
  unfold rowStep; dsimp only; split <;> rfl
@[simp] theorem rowStep_schedule (s : State) :
    (rowStep s).schedule = s.schedule := by
  unfold rowStep; dsimp only; split <;> rfl
@[simp] theorem rowStep_reads (s : State) :
    (rowStep s).reads = s.reads := by
  unfold rowStep; dsimp only; split <;> rfl
@[simp] theorem rowStep_memReads (s : State) :
    (rowStep s).memReads = s.memReads := by
  unfold rowStep; dsimp only; split <;> rfl

/-! ### engineWrite -/

@[simp] theorem engineWrite_platform (s : State) :
    (engineWrite s).platform = s.platform := by
  unfold engineWrite; dsimp only; split <;> simp
@[simp] theorem engineWrite_regs (s : State) :
    (engineWrite s).regs = s.regs := by
  unfold engineWrite; dsimp only; split <;> simp
@[simp] theorem engineWrite_surface (s : State) :
    (engineWrite s).surface = Memory.write (surfaceUnlisted s.platform) s.surface (currentIndex s)
      (merge s s.engine.row (currentByte s.engine) s.engine.hold) := by
  unfold engineWrite; dsimp only; split <;> simp
@[simp] theorem engineWrite_source (s : State) :
    (engineWrite s).source = s.source := by
  unfold engineWrite; dsimp only; split <;> simp
@[simp] theorem engineWrite_pending (s : State) :
    (engineWrite s).pending = s.pending := by
  unfold engineWrite; dsimp only; split <;> simp
@[simp] theorem engineWrite_schedule (s : State) :
    (engineWrite s).schedule = s.schedule := by
  unfold engineWrite; dsimp only; split <;> simp
@[simp] theorem engineWrite_reads (s : State) :
    (engineWrite s).reads = s.reads := by
  unfold engineWrite; dsimp only; split <;> simp
@[simp] theorem engineWrite_memReads (s : State) :
    (engineWrite s).memReads = s.memReads := by
  unfold engineWrite; dsimp only; split <;> simp

/-! ### takeTurn -/

@[simp] theorem takeTurn_platform (s : State) :
    (takeTurn s).platform = s.platform := by
  unfold takeTurn; split <;> rfl
@[simp] theorem takeTurn_regs (s : State) : (takeTurn s).regs = s.regs := by
  unfold takeTurn; split <;> rfl
@[simp] theorem takeTurn_status (s : State) : (takeTurn s).status = s.status := by
  unfold takeTurn; split <;> rfl
@[simp] theorem takeTurn_engine (s : State) : (takeTurn s).engine = s.engine := by
  unfold takeTurn; split <;> rfl
@[simp] theorem takeTurn_surface (s : State) : (takeTurn s).surface = s.surface := by
  unfold takeTurn; split <;> rfl
@[simp] theorem takeTurn_source (s : State) : (takeTurn s).source = s.source := by
  unfold takeTurn; split <;> rfl
@[simp] theorem takeTurn_pending (s : State) : (takeTurn s).pending = s.pending := by
  unfold takeTurn; split <;> rfl
@[simp] theorem takeTurn_reads (s : State) : (takeTurn s).reads = s.reads := by
  unfold takeTurn; split <;> rfl
@[simp] theorem takeTurn_memReads (s : State) :
    (takeTurn s).memReads = s.memReads := by
  unfold takeTurn; split <;> rfl

/-! ### onCmdWrite -/

@[simp] theorem onCmdWrite_platform (v : Word) (s : State) :
    (onCmdWrite v s).platform = s.platform := by
  unfold onCmdWrite; dsimp only; split
  · rfl
  · split <;> rfl
@[simp] theorem onCmdWrite_regs (v : Word) (s : State) :
    (onCmdWrite v s).regs = { s.regs with cmd := v } := by
  unfold onCmdWrite; dsimp only; split
  · rfl
  · split <;> rfl
@[simp] theorem onCmdWrite_surface (v : Word) (s : State) :
    (onCmdWrite v s).surface = s.surface := by
  unfold onCmdWrite; dsimp only; split
  · rfl
  · split <;> rfl
@[simp] theorem onCmdWrite_source (v : Word) (s : State) :
    (onCmdWrite v s).source = s.source := by
  unfold onCmdWrite; dsimp only; split
  · rfl
  · split <;> rfl
@[simp] theorem onCmdWrite_pending (v : Word) (s : State) :
    (onCmdWrite v s).pending = s.pending := by
  unfold onCmdWrite; dsimp only; split
  · rfl
  · split <;> rfl
@[simp] theorem onCmdWrite_schedule (v : Word) (s : State) :
    (onCmdWrite v s).schedule = s.schedule := by
  unfold onCmdWrite; dsimp only; split
  · rfl
  · split <;> rfl
@[simp] theorem onCmdWrite_reads (v : Word) (s : State) :
    (onCmdWrite v s).reads = s.reads := by
  unfold onCmdWrite; dsimp only; split
  · rfl
  · split <;> rfl
@[simp] theorem onCmdWrite_memReads (v : Word) (s : State) :
    (onCmdWrite v s).memReads = s.memReads := by
  unfold onCmdWrite; dsimp only; split
  · rfl
  · split <;> rfl

/-! ### writeReg -/

@[simp] theorem writeReg_platform (r : Reg) (v : Word) (s : State) :
    (writeReg r v s).platform = s.platform := by
  cases r <;> simp [writeReg, storeReg]
@[simp] theorem writeReg_regs (r : Reg) (v : Word) (s : State) :
    (writeReg r v s).regs = storeReg r v s.regs := by
  cases r <;> simp [writeReg, storeReg]
@[simp] theorem writeReg_surface (r : Reg) (v : Word) (s : State) :
    (writeReg r v s).surface = s.surface := by
  cases r <;> simp [writeReg, storeReg]
@[simp] theorem writeReg_source (r : Reg) (v : Word) (s : State) :
    (writeReg r v s).source = s.source := by
  cases r <;> simp [writeReg, storeReg]
@[simp] theorem writeReg_pending (r : Reg) (v : Word) (s : State) :
    (writeReg r v s).pending = s.pending := by
  cases r <;> simp [writeReg, storeReg]
@[simp] theorem writeReg_schedule (r : Reg) (v : Word) (s : State) :
    (writeReg r v s).schedule = s.schedule := by
  cases r <;> simp [writeReg, storeReg]
@[simp] theorem writeReg_reads (r : Reg) (v : Word) (s : State) :
    (writeReg r v s).reads = s.reads := by
  cases r <;> simp [writeReg, storeReg]
@[simp] theorem writeReg_memReads (r : Reg) (v : Word) (s : State) :
    (writeReg r v s).memReads = s.memReads := by
  cases r <;> simp [writeReg, storeReg]

end Sys2Proof.Machine
end

