-- ==== Sys2Proof/Laws/Ops.lean ====
section
/-! SUPPORT. What the shared operations can do, said once: the checks of a `CMD` write, its three outcomes, the engine's
step, who moves, and the inversion of one step of the machine. -/

namespace Sys2Proof.Machine

/-! ### The issue of a command -/

theorem extractOp_one : (0x0001#16).extractLsb' 0 2 = (1#2) := by decide
theorem extractOp_two : (0x0002#16).extractLsb' 0 2 = (2#2) := by decide
theorem extractOp_six : (0x0006#16).extractLsb' 0 2 = (2#2) := by decide

theorem legalCommand_iff (v : Word) : legalCommand v = true ↔ v = 0x0001#16 ∨ v = 0x0002#16 ∨ v = 0x0006#16 := by
  simp [legalCommand, or_assoc]

theorem word_eq_zero_iff (v : Word) : v = 0#16 ↔ v.toNat = 0 := by
  rw [← BitVec.toNat_inj]; simp

/-- The checks read neither `CMD` nor `STATUS` (R96). -/
@[simp] theorem check_clearResult (v : Word) (s : State) : check v (clearResult s) = check v s := rfl

@[simp] theorem check_storeCmd (v c : Word) (s : State) :
    check v { s with regs := storeReg .cmd c s.regs } = check v s := rfl

theorem legalBackground_iff (p : Config.Platform) (bg : Word) :
    legalBackground p bg = true ↔ bg.toNat ≤ 15 ∨ bg = p.transparent := by
  simp [legalBackground]

/-- The checks of R96 over natural numbers, in the priority of R105. -/
theorem check_eq (v : Word) (s : State) :
    check v s =
      if legalCommand v = false then .badOp
      else if s.regs.xorg.toNat > 319 ∨ s.regs.yorg.toNat > 199 then .origin
      else if s.regs.xscale.toNat = 0 ∨ s.regs.yscale.toNat = 0 then .scale
      else if (v.extractLsb' 0 2 = opBilevel ∧ s.regs.fg.toNat > 15) ∨
          ¬ (s.regs.bg.toNat ≤ 15 ∨ s.regs.bg = s.platform.transparent) then .color
      else .none := by
  simp only [← legalBackground_iff, ← word_eq_zero_iff]
  unfold check
  by_cases h : v.extractLsb' 0 2 = opBilevel ∧ s.regs.fg.toNat > 15 <;> simp [h]

/-- The outcome of the checks (R96) in words: the accepted command words with a legal request. -/
theorem check_eq_none_iff (v : Word) (s : State) :
    check v s = .none ↔ legalCommand v = true ∧ LegalRequest (v.extractLsb' 0 2 = opBilevel) s := by
  rw [check_eq]
  constructor
  · intro h
    split at h
    · cases h
    split at h
    · cases h
    split at h
    · cases h
    split at h
    · cases h
    rename_i h1 h2 h3 h4
    exact ⟨by simpa using h1, by omega, by omega, by omega, by omega, fun ho => by
      simp only [ho, true_and] at h4; omega, by tauto⟩
  · rintro ⟨h1, hx, hy, hxs, hys, hfg, hbg⟩
    rw [if_neg (by simp [h1]), if_neg (by omega), if_neg (by omega), if_neg]
    rintro (⟨ho, h⟩ | h)
    · have := hfg ho; omega
    · exact h hbg

/-- A `CMD` write while `BUSY = 1` (R98). -/
theorem onCmdWrite_busy {v : Word} {s : State} (h : s.status.busy = true) :
    onCmdWrite v s =
      { s with regs := { s.regs with cmd := v }, status := { s.status with ovr := true } } := by
  simp [onCmdWrite, h, overrun, storeReg]

/-- A `CMD` write while `BUSY = 0` whose checks fail (R95, R99). -/
theorem onCmdWrite_rejected {v : Word} {s : State} {code : ErrCode} (h : s.status.busy = false)
    (hc : check v s = code) (hn : code ≠ .none) :
    onCmdWrite v s =
      { s with
        regs := { s.regs with cmd := v }
        status := { busy := false, done := false, err := code, ovr := false } } := by
  subst hc
  unfold onCmdWrite
  simp only [h, check_clearResult, check_storeCmd, Bool.false_eq_true, if_false]
  cases hcc : check v s <;> simp_all [reject, clearResult, storeReg]

/-- A `CMD` write while `BUSY = 0` whose checks pass (R95, R97). -/
theorem onCmdWrite_accepted {v : Word} {s : State} (h : s.status.busy = false) (hc : check v s = .none) :
    onCmdWrite v s =
      { s with
        regs := { s.regs with cmd := v }
        status := setAccepted ((acceptedEngine v s).w == 0 || (acceptedEngine v s).h == 0)
          { busy := false, done := false, err := .none, ovr := false }
        engine := acceptedEngine v s } := by
  unfold onCmdWrite
  simp only [h, check_clearResult, check_storeCmd, Bool.false_eq_true, if_false, hc]
  simp only [accept, clearResult, storeReg, h]
  rfl

/-! ### The engine -/

/-- One engine step: nothing to do, a fault, or one of its two halves (R78). -/
inductive EngineOutcome (s : State) : Host.Outcome State Fault Refusal → Prop where
  | idle (hb : s.status.busy = false) : EngineOutcome s (.next s)
  | noRasterizer (hb : s.status.busy = true) (hr : rasterizerSelected s.engine = false) :
      EngineOutcome s (.fault .noRasterizer)
  | overlap (hb : s.status.busy = true) (ho : overlaps s.platform s.engine = true) : EngineOutcome s (.fault .aliasHazard)
  | outOfRange (hb : s.status.busy = true) (hi : surfaceSize s.platform ≤ currentIndex s) :
      EngineOutcome s (.fault .surfaceOutOfRange)
  | read (hb : s.status.busy = true) (hr : rasterizerSelected s.engine = true)
      (ho : overlaps s.platform s.engine = false) (hi : currentIndex s < surfaceSize s.platform)
      (hp : s.engine.phase = .rd) : EngineOutcome s (.next (engineRead s))
  | write (hb : s.status.busy = true) (hr : rasterizerSelected s.engine = true)
      (ho : overlaps s.platform s.engine = false) (hi : currentIndex s < surfaceSize s.platform)
      (hp : s.engine.phase = .wr) : EngineOutcome s (.next (engineWrite s))

theorem engineStep_outcome (s : State) : EngineOutcome s (engineStep s) := by
  unfold engineStep
  cases hb : s.status.busy
  · exact .idle hb
  cases hr : rasterizerSelected s.engine
  · exact .noRasterizer hb hr
  cases ho : overlaps s.platform s.engine
  · by_cases hi : currentIndex s ≥ surfaceSize s.platform
    · simpa [hi] using EngineOutcome.outOfRange hb hi
    · cases hp : s.engine.phase
      · simpa [hi] using EngineOutcome.read hb hr ho (by omega) hp
      · simpa [hi] using EngineOutcome.write hb hr ho (by omega) hp
  · exact .overlap hb ho

/-- A running engine inside its surface, whose source does not overlap its spans, takes the half its phase names. -/
theorem engineStep_of_running {s : State} (hb : s.status.busy = true) (hr : rasterizerSelected s.engine = true)
    (ho : overlaps s.platform s.engine = false) (hi : currentIndex s < surfaceSize s.platform) :
    engineStep s = .next (if s.engine.phase = .rd then engineRead s else engineWrite s) := by
  unfold engineStep
  rw [if_neg (by simp [hb]), if_neg (by simp [hr]), if_neg (by simp [ho]), if_neg (by omega)]
  cases hp : s.engine.phase <;> rfl

@[simp] theorem bankStep_latched (e : Engine) : (bankStep e).latched = e.latched := by unfold bankStep; split <;> rfl
@[simp] theorem bankStep_w (e : Engine) : (bankStep e).w = e.w := by unfold bankStep; split <;> rfl
@[simp] theorem bankStep_h (e : Engine) : (bankStep e).h = e.h := by unfold bankStep; split <;> rfl
@[simp] theorem bankStep_row (e : Engine) : (bankStep e).row = e.row := by unfold bankStep; split <;> rfl
@[simp] theorem bankStep_k (e : Engine) : (bankStep e).k = e.k := by unfold bankStep; split <;> rfl
@[simp] theorem bankStep_phase (e : Engine) : (bankStep e).phase = e.phase := by unfold bankStep; split <;> rfl
@[simp] theorem bankStep_hold (e : Engine) : (bankStep e).hold = e.hold := by unfold bankStep; split <;> rfl

/-- The `WR` half inside a row. -/
theorem engineWrite_inRow {s : State} (h : s.engine.k + 1 < spanBytes s.engine) :
    engineWrite s =
      { memWriteSurf s (currentIndex s) (merge s s.engine.row (currentByte s.engine) s.engine.hold) with
        engine := { s.engine with phase := .rd, k := s.engine.k + 1 } } := by
  simp [engineWrite, h]

/-- The `WR` half at the end of a row. -/
theorem engineWrite_rowEnd {s : State} (h : ¬ s.engine.k + 1 < spanBytes s.engine) :
    engineWrite s =
      { memWriteSurf s (currentIndex s) (merge s s.engine.row (currentByte s.engine) s.engine.hold) with
        engine := bankStep { s.engine with phase := .rd, k := 0, row := s.engine.row + 1 }
        status := if s.engine.row + 1 = s.engine.h then setComplete s.status else s.status } := by
  simp only [engineWrite, h, if_false, rowStep, bankStep_row, bankStep_h]
  split <;> simp_all [complete, memWriteSurf]

/-! ### Who moves -/

theorem mover_host {s : State} (h : HostTurn s) : mover s = some .host := by
  obtain ⟨hp, hs⟩ := h
  cases hl : s.pending with
  | nil => exact absurd hl hp
  | cons ev rest =>
    cases hb : s.status.busy with
    | false => simp [mover, contended, hb, hl]
    | true => simp [mover, contended, hb, hl, List.headD_eq_head?_getD, hs hb]

theorem mover_engine {s : State} (h : EngineTurn s) : mover s = some .engine := by
  obtain ⟨hb, hs⟩ := h
  cases hl : s.pending with
  | nil => simp [mover, contended, hb, hl]
  | cons ev rest =>
    simp only [HostTurn, hl, ne_eq, reduceCtorEq, not_false_eq_true, hb, true_and, forall_const] at hs
    cases hd : s.schedule with
    | nil => simp [mover, contended, hb, hl, hd]
    | cons a l => cases a <;> simp_all [mover, contended]

/-- Nobody moves exactly when the block is idle and the host has nothing left. -/
theorem mover_none_iff (s : State) : mover s = none ↔ s.status.busy = false ∧ s.pending = [] := by
  cases hb : s.status.busy <;> cases hl : s.pending <;> simp [mover, contended, hb, hl]

@[simp] theorem contended_eq (s : State) : contended s = (s.status.busy && !s.pending.isEmpty) := rfl

/-- The three kinds of step: the host's event, the engine's access, or waiting. -/
theorem step_cases (s : State) :
    (HostTurn s ∧ ∃ ev rest, s.pending = ev :: rest ∧ step s = runEvent ev (takeTurn s)) ∨
    (EngineTurn s ∧ step s = engineStep (takeTurn s)) ∨
    (s.status.busy = false ∧ s.pending = [] ∧ step s = .next s) := by
  by_cases hh : HostTurn s
  · left
    refine ⟨hh, ?_⟩
    cases hl : s.pending with
    | nil => exact absurd hl hh.1
    | cons ev rest =>
      exact ⟨ev, rest, rfl, by simp [step, runTurn, mover_host hh, hostStep, hl]⟩
  · by_cases he : EngineTurn s
    · right; left
      exact ⟨he, by simp [step, runTurn, mover_engine he]⟩
    · right; right
      have hb : s.status.busy = false := by
        simp only [EngineTurn, not_and, not_not] at he
        cases hb : s.status.busy with
        | false => rfl
        | true => exact absurd (he hb) hh
      have hp : s.pending = [] := by
        by_contra hp
        exact hh ⟨hp, fun h => by simp [hb] at h⟩
      exact ⟨hb, hp, by simp [step, runTurn, (mover_none_iff s).2 ⟨hb, hp⟩]⟩

/-- What the next state of an event can be: a register write (with a command's issue), a register read, a poll, the
record of a memory byte, one byte of the surface or of the source, or a reset. -/
inductive EventNext (ev : HostEvent) (s : State) : State → Prop where
  | writeReg (r : Reg) (v : Word) : EventNext ev s (advance (writeReg r v s))
  | readReg (r : Reg) : EventNext ev s (advance (record (readReg s r) s))
  | poll : EventNext ev s s
  | readMemory (v : Byte) : EventNext ev s (advance (recordByte v s))
  | writeSurface (idx : Nat) (v : Byte)
      (hev : ev = .surfaceWrite idx v ∨ ∃ a, ev = .sourceWrite a v ∧ aliasIndex s.platform a = some idx)
      (hi : idx < surfaceSize s.platform) : EventNext ev s (advance (memWriteSurf s idx v))
  | writeSource (a : Nat) (v : Byte) (hev : ev = .sourceWrite a v) (hn : aliasIndex s.platform a = none)
      (ha : a < sourceSize s.platform) : EventNext ev s (advance (hostWriteSrc s a v))
  | reset (hev : ev = .reset) : EventNext ev s (advance (applyReset s))

/-- A register write that answers a next state. -/
theorem execWr_next {o : Nat} {v : Word} {s t : State} (h : execWr o v s = .next t) :
    ∃ r, t = advance (writeReg r v s) := by
  unfold execWr at h
  split at h <;> cases h
  exact ⟨_, rfl⟩

/-- A register read that answers a next state. -/
theorem execRd_next {o : Nat} {s t : State} (h : execRd o s = .next t) :
    ∃ r, t = advance (record (readReg s r) s) := by
  unfold execRd at h
  split at h <;> cases h
  exact ⟨_, rfl⟩

/-- An instruction that answers a next state. -/
theorem exec_next {i : Instr} {s t : State} (ev : HostEvent) (h : exec i s = .next t) : EventNext ev s t := by
  cases i with
  | drawBilevel => cases h; exact .writeReg .cmd _
  | drawMultilevel invx => cases h; exact .writeReg .cmd _
  | wr o v => obtain ⟨r, rfl⟩ := execWr_next h; exact .writeReg r v
  | rd o => obtain ⟨r, rfl⟩ := execRd_next h; exact .readReg r
  | wait =>
    simp only [exec, execWait] at h
    split at h <;> cases h
    · exact .poll
    · exact .readReg .status

theorem hostReadSurface_next {idx : Nat} {s t : State} (h : hostReadSurface idx s = .next t) :
    t = advance (recordByte (memReadSurf s idx) s) := by
  unfold hostReadSurface at h
  repeat' split at h
  all_goals cases h
  rfl

theorem hostWriteSurface_next {idx : Nat} {v : Byte} {s t : State} (h : hostWriteSurface idx v s = .next t) :
    idx < surfaceSize s.platform ∧ t = advance (memWriteSurf s idx v) := by
  unfold hostWriteSurface at h
  repeat' split at h
  all_goals cases h
  exact ⟨by omega, rfl⟩

theorem runEvent_next {ev : HostEvent} {s t : State} (h : runEvent ev s = .next t) : EventNext ev s t := by
  cases ev with
  | word w =>
    simp only [runEvent, runWord] at h
    split at h
    · exact exec_next _ h
    · cases h; exact .writeReg .cmd _
    · cases h
  | port bytes o value =>
    simp only [runEvent, runPort] at h
    split at h
    · cases value <;> exact exec_next _ h
    · cases h
  | surfaceRead idx => rw [hostReadSurface_next h]; exact .readMemory _
  | surfaceWrite idx v =>
    obtain ⟨hi, rfl⟩ := hostWriteSurface_next h
    exact .writeSurface idx v (.inl rfl) hi
  | sourceRead a =>
    simp only [runEvent, hostReadSource] at h
    split at h
    · cases h
    · cases hx : aliasIndex s.platform a with
      | none => simp only [hx] at h; cases h; exact .readMemory _
      | some idx =>
        simp only [hx] at h
        rw [hostReadSurface_next h]
        exact .readMemory _
  | sourceWrite a v =>
    simp only [runEvent, hostWriteSource] at h
    split at h
    · cases h
    · cases hx : aliasIndex s.platform a with
      | none =>
        simp only [hx] at h
        split at h <;> cases h
        exact .writeSource a v rfl hx (by omega)
      | some idx =>
        simp only [hx] at h
        obtain ⟨hi, rfl⟩ := hostWriteSurface_next h
        exact .writeSurface idx v (.inr ⟨a, rfl, hx⟩) hi
  | reset => cases h; exact .reset rfl

end Sys2Proof.Machine
end

