-- ==== Sys2Proof/Laws/Engine.lean ====
section
/-! SUPPORT. What a running engine is, said once: its ranges, its current index, what its pixel values depend on, and how
its runs compose. -/

namespace Sys2Proof.Machine

/-! ### The translator and the request -/

theorem xlate_idx (pageSize px py : Nat) :
    (xlate pageSize px py).idx = py % 4 * pageSize + py / 4 * 160 + px / 2 := rfl

/-- A bank and a bank offset are determined by the index they make. -/
theorem bank_offset_unique {ps b o b' o' : Nat} (ho : o < ps) (ho' : o' < ps) (h : b * ps + o = b' * ps + o') :
    b = b' ∧ o = o' := by
  have hb : b = b' := by
    have h1 : (b * ps + o) / ps = b := by
      rw [Nat.add_comm, Nat.add_mul_div_right _ _ (by omega), Nat.div_eq_of_lt ho, Nat.zero_add]
    have h2 : (b' * ps + o') / ps = b' := by
      rw [Nat.add_comm, Nat.add_mul_div_right _ _ (by omega), Nat.div_eq_of_lt ho', Nat.zero_add]
    rw [← h1, ← h2, h]
  subst hb
  exact ⟨rfl, by omega⟩

theorem sourceBase_eq (s : State) :
    sourceBase s =
      BitVec.ofNat 32 ((s.regs.srcHi.toNat * 2 ^ 16 + s.regs.srcLo.toNat) % 2 ^ s.platform.srcAddrW) := by
  unfold sourceBase sourceSize
  congr 2
  rw [BitVec.toNat_append, Nat.shiftLeft_eq, Nat.mul_comm, ← Nat.two_pow_add_eq_or_of_lt s.regs.srcLo.isLt]

theorem sourceBase_toNat (s : State) :
    (sourceBase s).toNat = (s.regs.srcHi.toNat * 2 ^ 16 + s.regs.srcLo.toNat) % 2 ^ s.platform.srcAddrW := by
  rw [sourceBase_eq, BitVec.toNat_ofNat]
  have h1 := s.regs.srcHi.isLt
  have h2 := s.regs.srcLo.isLt
  exact Nat.mod_eq_of_lt (lt_of_le_of_lt (Nat.mod_le _ _) (by omega))

/-- The low nibble of a register as its value mod 16. -/
theorem extractLow_eq (v : Word) : v.extractLsb' 0 4 = BitVec.ofNat 4 v.toNat := by
  apply BitVec.eq_of_toNat_eq
  simp

/-! ### The ranges of a running engine -/

variable {p : Config.Platform} {e : Engine}

theorem Running.width (h : Running p e) : 1 ≤ e.w ∧ e.latched.x.toNat + e.w ≤ 320 := by
  have h1 := h.w
  have := h.x
  have := h.wPos
  unfold clampedWidth Config.screenW at h1
  omega

theorem Running.height (h : Running p e) : 1 ≤ e.h ∧ e.latched.y.toNat + e.h ≤ 200 := by
  have h1 := h.h
  have := h.y
  have := h.hPos
  unfold clampedHeight Config.screenH at h1
  omega

theorem Running.blast_le (h : Running p e) : bfirst e ≤ blast e ∧ blast e ≤ 159 := by
  have := h.width
  unfold bfirst blast lastColumn
  omega

theorem Running.currentByte_le (h : Running p e) : currentByte e ≤ blast e := by
  have h1 : e.k < blast e - bfirst e + 1 := h.k
  have := h.blast_le
  unfold currentByte
  omega

theorem Running.rasterizer (h : Running p e) : rasterizerSelected e = true := by
  unfold rasterizerSelected
  rcases h.op with h | h <;> simp [h]

/-- Source rows of output rows exist (R72). -/
theorem Running.sourceRow_lt (h : Running p e) {i : Nat} (hi : i < e.h) : sourceRow e.latched i < e.latched.hb.toNat := by
  have := h.h
  unfold clampedHeight at this
  unfold sourceRow
  apply Nat.div_lt_of_lt_mul
  rw [Nat.mul_comm]
  omega

/-- Source columns of output columns exist (R72). -/
theorem Running.scanColumn_lt (h : Running p e) {j : Nat} (hj : j < e.w) :
    scanColumn e.latched j < pixelsPerByte e.latched.op * e.latched.wb.toNat := by
  have := h.w
  unfold clampedWidth at this
  unfold scanColumn
  apply Nat.div_lt_of_lt_mul
  rw [show e.latched.xs.toNat * (pixelsPerByte e.latched.op * e.latched.wb.toNat) =
    e.latched.wb.toNat * pixelsPerByte e.latched.op * e.latched.xs.toNat by ring]
  omega

/-! ### The current span byte -/

/-- The incremental index is the translator's (R67, R78). -/
theorem currentIndex_eq {s : State} (h : Running s.platform s.engine) :
    currentIndex s =
      (xlate s.platform.pageSize (2 * currentByte s.engine) (s.engine.latched.y.toNat + s.engine.row)).idx := by
  rw [xlate_idx]
  unfold currentIndex
  rw [h.bank, h.rowOff]
  omega

theorem currentIndex_lt {s : State} (hp : s.platform.Legal) (h : Running s.platform s.engine) :
    currentIndex s < surfaceSize s.platform := by
  rw [currentIndex_eq h, xlate_idx]
  have h1 := h.currentByte_le
  have h2 := h.blast_le
  have h3 := h.height
  have h4 := h.row
  have hs : 8000 ≤ s.platform.pageSize := hp.1
  unfold surfaceSize Config.banks
  have : (s.engine.latched.y.toNat + s.engine.row) % 4 * s.platform.pageSize ≤ 3 * s.platform.pageSize :=
    Nat.mul_le_mul_right _ (by omega)
  omega

/-- In a state of the invariant a running engine whose source does not overlap its spans takes the half its phase names
(R78, R104). -/
theorem engineStep_of_inv {s : State} (hi : s.Inv) (hb : s.status.busy = true)
    (ho : overlaps s.platform s.engine = false) :
    engineStep s = .next (if s.engine.phase = .rd then engineRead s else engineWrite s) :=
  engineStep_of_running hb (hi.running hb).rasterizer ho (currentIndex_lt hi.platform (hi.running hb))

/-! ### Acceptance -/

/-- The engine of an accepted, non-empty command is a running engine (R97). -/
theorem Running.of_accepted {v : Word} {s : State} (hc : check v s = .none)
    (hw : (acceptedEngine v s).w ≠ 0) (hh : (acceptedEngine v s).h ≠ 0) : Running s.platform (acceptedEngine v s) := by
  obtain ⟨hl, hr⟩ := (check_eq_none_iff _ _).1 hc
  have hop : (acceptedEngine v s).latched.op = v.extractLsb' 0 2 := rfl
  have hpos : 0 < 2 ^ s.platform.srcAddrW := Nat.two_pow_pos _
  exact
    { op := by rw [hop]; rcases (legalCommand_iff v).1 hl with h | h | h <;> subst h <;> decide
      invx := by
        show v.extractLsb' 0 2 = opBilevel → v.getLsbD 2 = false
        rcases (legalCommand_iff v).1 hl with h | h | h <;> subst h <;> decide
      src := by
        show (sourceBase s).toNat < _
        rw [sourceBase_toNat]
        exact Nat.mod_lt _ hpos
      x := hr.xorg, y := hr.yorg, xs := hr.xscale, ys := hr.yscale, bg := hr.bg, w := rfl, h := rfl
      wPos := Nat.pos_of_ne_zero hw, hPos := Nat.pos_of_ne_zero hh, row := Nat.pos_of_ne_zero hh
      bank := by simp [acceptedEngine, latch, Fin.ofNat]
      rowOff := by simp [acceptedEngine]
      k := Nat.succ_pos _ }

/-! ### Windows of the source onto the surface (R123) -/

/-- A source address that a window maps lies in that window. -/
theorem aliasIndex_eq_some {p : Config.Platform} {a idx : Nat} (h : aliasIndex p a = some idx) :
    ∃ w ∈ p.windows, w.source ≤ a ∧ a < w.source + w.size ∧ idx = w.surface + (a - w.source) := by
  unfold aliasIndex at h
  cases hf : p.windows.find? (fun w => decide (w.source ≤ a ∧ a < w.source + w.size)) with
  | none => rw [hf] at h; cases h
  | some w =>
    have hw := List.find?_some hf
    simp only [decide_eq_true_eq] at hw
    rw [hf, Option.map_some, Option.some.injEq] at h
    exact ⟨w, List.mem_of_find?_eq_some hf, hw.1, hw.2, h.symm⟩

/-- What a legal window maps exists in both spaces (R34). -/
theorem aliasIndex_range {p : Config.Platform} (hp : p.Legal) {a idx : Nat} (h : aliasIndex p a = some idx) :
    a < sourceSize p ∧ idx < surfaceSize p := by
  obtain ⟨w, hw, h1, h2, rfl⟩ := aliasIndex_eq_some h
  have := hp.2.2.2.2 w hw
  unfold sourceSize surfaceSize
  omega

/-- A surface index is a source byte's when some source byte of the command is mapped there. -/
theorem isSourceIndex_iff (p : Config.Platform) (l : Latched) (idx : Nat) :
    isSourceIndex p l idx = true ↔ ∃ a, isSourceByte p l a = true ∧ aliasIndex p a = some idx := by
  simp only [isSourceIndex, List.any_eq_true, Bool.and_eq_true, decide_eq_true_eq]
  constructor
  · rintro ⟨w, -, ⟨-, h⟩, hb⟩
    exact ⟨_, hb, h⟩
  · rintro ⟨a, hb, h⟩
    obtain ⟨w, hw, h1, h2, rfl⟩ := aliasIndex_eq_some h
    have e : w.source + (w.surface + (a - w.source) - w.surface) = a := by omega
    exact ⟨w, hw, ⟨by omega, by rw [e]; exact h⟩, by rw [e]; exact hb⟩

/-- A command overlaps when a source byte of it is mapped to one of its span bytes. -/
theorem overlaps_iff (p : Config.Platform) (e : Engine) :
    overlaps p e = true ↔ ∃ i b a, i < e.h ∧ bfirst e ≤ b ∧ b < bfirst e + spanBytes e ∧
      isSourceByte p e.latched a = true ∧ aliasIndex p a = some (spanIndex p e i b) := by
  simp only [overlaps, Bool.and_eq_true, List.any_eq_true, List.mem_range, isSourceIndex_iff, Bool.not_eq_true',
    List.isEmpty_eq_false_iff]
  constructor
  · rintro ⟨-, i, hi, k, hk, a, ha, h⟩
    exact ⟨i, bfirst e + k, a, hi, by omega, by omega, ha, h⟩
  · rintro ⟨i, b, a, hi, h1, h2, ha, h⟩
    obtain ⟨w, hw, -⟩ := aliasIndex_eq_some h
    refine ⟨List.ne_nil_of_mem hw, i, hi, b - bfirst e, by omega, a, ha, ?_⟩
    rwa [show bfirst e + (b - bfirst e) = b by omega]

/-- On a platform without windows no command overlaps. -/
theorem overlaps_of_no_windows {p : Config.Platform} (h : p.windows = []) (e : Engine) : overlaps p e = false := by
  simp [overlaps, h]

/-- On a platform without windows every command meets the premise of R123. -/
theorem NoOverlap.of_no_windows {p : Config.Platform} (h : p.windows = []) (e : Engine) : NoOverlap p e := by
  intro r j i b _ _ _ _ _
  simp [aliasIndex, h]

/-- The premise of R123 is about the request, `W` and `H` alone. -/
theorem NoOverlap.congr {p : Config.Platform} {e e' : Engine} (h : NoOverlap p e) (hl : e'.latched = e.latched)
    (hw : e'.w = e.w) (hh : e'.h = e.h) : NoOverlap p e' := by
  unfold NoOverlap bfirst blast lastColumn at *
  rw [hl, hw, hh]
  exact h

/-! ### What pixel values depend on -/

/-- `Pix` depends on the parameters, on `L` and on the source bytes of the bitmap alone (R74). -/
theorem pix_congr {u s : State} (hr : Running s.platform s.engine) (hp : u.platform = s.platform)
    (hl : u.engine.latched = s.engine.latched)
    (hs : ∀ r j, r < s.engine.latched.hb.toNat → j < s.engine.latched.wb.toNat →
      memReadSrc u (sourceAddr s.platform s.engine.latched r j) =
        memReadSrc s (sourceAddr s.platform s.engine.latched r j))
    {i j : Nat} (hi : i < s.engine.h) (hj : j < s.engine.w) : pix u i j = pix s i j := by
  have hrow := hr.sourceRow_lt hi
  have hcol := hr.scanColumn_lt hj
  unfold pix
  rw [hl]
  split
  · rename_i hop
    rw [hop, show pixelsPerByte opBilevel = 8 from rfl] at hcol
    simp only [biPix, backgroundPix, bilevelSource, xlateCol, hp, hl]
    rw [hs _ _ hrow (Nat.div_lt_of_lt_mul hcol)]
    rfl
  · rename_i hop
    rw [hr.op.resolve_left hop, show pixelsPerByte opMultilevel = 2 from rfl] at hcol
    have hc : multilevelColumn s.engine.latched j < 2 * s.engine.latched.wb.toNat := by
      unfold multilevelColumn
      split <;> omega
    simp only [mlPix, backgroundPix, multilevelSource, xlateCol, hp, hl]
    rw [hs _ _ hrow (Nat.div_lt_of_lt_mul hc)]
    rfl

/-- The merge depends on the same things, on `W` and on the old byte. -/
theorem merge_congr {u s : State} (hr : Running s.platform s.engine) (hp : u.platform = s.platform)
    (hl : u.engine.latched = s.engine.latched) (hw : u.engine.w = s.engine.w)
    (hs : ∀ r j, r < s.engine.latched.hb.toNat → j < s.engine.latched.wb.toNat →
      memReadSrc u (sourceAddr s.platform s.engine.latched r j) =
        memReadSrc s (sourceAddr s.platform s.engine.latched r j))
    {i : Nat} (hi : i < s.engine.h) (b : Nat) (old : Byte) : merge u i b old = merge s i b old := by
  have hat : ∀ px, pixAt u i px = pixAt s i px := by
    intro px
    unfold pixAt
    rw [hl, hw]
    dsimp only
    split
    · exact pix_congr hr hp hl hs hi (by omega)
    · rfl
  simp only [merge, hat]

/-! ### Runs -/

theorem engineRun_add (n m : Nat) (s u : State) (h : engineRun n s = .next u) :
    engineRun (n + m) s = engineRun m u := by
  induction n generalizing s with
  | zero =>
    simp only [engineRun] at h
    cases h
    simp
  | succ n ih =>
    rw [Nat.succ_add]
    simp only [engineRun] at h ⊢
    split at h
    · rename_i t ht
      exact ih t h
    · cases h
    · cases h

/-- One step of the machine at the head of a run. -/
theorem core_run_succ (n : Nat) (s u : State) (h : step s = .next u) :
    Sys2Proof.core.run (n + 1) s = Sys2Proof.core.run n u := by
  have h' : Sys2Proof.core.step s = .next u := h
  simp only [Host.Core.run, h']

end Sys2Proof.Machine
end

