-- ==== Sys2Proof/Laws/PerInstr.lean ====
section
/-! SUPPORT. Statements for all instructions, made per instruction: the family `Encoding`, each instruction's word against
the mask and match of its row of spec/opcode_table.json. -/

namespace Sys2Proof.Laws

/-- The word of a well-formed instruction matches its opcode-table row. -/
def Encoding.Statement (i : Instr) : Prop :=
  i.wellFormed = true →
    match i with
    | .drawBilevel => ∃ v, encode i = .command v ∧ v &&& 0xFFFF#16 = 0x0001#16
    | .drawMultilevel invx => ∃ v, encode i = .command v ∧ v &&& 0xFFFB#16 = 0x0002#16 ∧ v.getLsbD 2 = invx
    | .wr offset imm => ∃ w, encode i = .stream w ∧ w &&& 0x0000FFE1#32 = 0x00000001#32 ∧
        2 * (w.extractLsb' 1 4).toNat = offset ∧ w.extractLsb' 16 16 = imm
    | .rd offset => ∃ w, encode i = .stream w ∧ w &&& 0xFFFFFFE1#32 = 0x00000000#32 ∧
        2 * (w.extractLsb' 1 4).toNat = offset
    | .wait => ∃ w, encode i = .stream w ∧ w &&& 0xFFFFFFFF#32 = 0x00008002#32

/-- The even offsets of the window, one by one. -/
theorem offset_cases {offset : Nat} (h : offsetWellFormed offset = true) :
    offset ∈ [0x00, 0x02, 0x04, 0x06, 0x08, 0x0A, 0x0C, 0x0E, 0x10, 0x12, 0x14, 0x16, 0x18, 0x1A, 0x1C, 0x1E] := by
  simp only [offsetWellFormed, Bool.and_eq_true, beq_iff_eq, decide_eq_true_eq] at h
  obtain ⟨h2, hle⟩ := h
  interval_cases offset <;> simp_all

/-- The low half of the word of a register write. -/
theorem writeWord_low (offset : Nat) (imm : Word) :
    (writeWord offset imm).extractLsb' 0 16 = BitVec.ofNat 16 offset ||| 1#16 := by
  ext i hi
  rw [BitVec.getElem_extractLsb', writeWord, BitVec.getLsbD_append, if_pos (by omega), Nat.zero_add,
    BitVec.getLsbD_eq_getElem]

/-- The high half of the word of a register write. -/
theorem writeWord_high (offset : Nat) (imm : Word) : (writeWord offset imm).extractLsb' 16 16 = imm := by
  ext i hi
  rw [BitVec.getElem_extractLsb', writeWord, BitVec.getLsbD_append, if_neg (by omega), Nat.add_sub_cancel_left,
    BitVec.getLsbD_eq_getElem]

/-- A mask of the low half acts on the low half. -/
theorem and_low (w : BitVec 32) (m : Word) : w &&& m.zeroExtend 32 = (w.extractLsb' 0 16 &&& m).zeroExtend 32 := by
  apply BitVec.eq_of_getLsbD_eq
  intro i hi
  simp only [BitVec.truncate_eq_setWidth, BitVec.getLsbD_and, BitVec.getLsbD_setWidth, BitVec.getLsbD_extractLsb',
    Nat.zero_add]
  by_cases h16 : i < 16
  · simp [hi, h16]
  · simp [h16, BitVec.getLsbD_of_ge m i (by omega)]

theorem Encoding.drawBilevel : Encoding.Statement .drawBilevel := fun _ => ⟨_, rfl, by decide⟩

theorem Encoding.drawMultilevel (invx : Bool) : Encoding.Statement (.drawMultilevel invx) :=
  fun _ => ⟨_, rfl, by revert invx; decide, by revert invx; decide⟩

theorem Encoding.wr (offset : Nat) (imm : Word) : Encoding.Statement (.wr offset imm) := by
  intro h
  refine ⟨_, rfl, ?_, ?_, writeWord_high offset imm⟩
  · rw [show (0x0000FFE1#32) = (0xFFE1#16).zeroExtend 32 by decide, and_low, writeWord_low]
    have hc := offset_cases h
    revert hc
    generalize offset = o
    revert o
    decide
  · have hlow : (writeWord offset imm).extractLsb' 1 4 = ((writeWord offset imm).extractLsb' 0 16).extractLsb' 1 4 := by
      ext i hi
      simp only [BitVec.getElem_extractLsb', BitVec.getLsbD_extractLsb', Nat.zero_add]
      simp [show 1 + i < 16 by omega]
    rw [hlow, writeWord_low]
    have hc := offset_cases h
    revert hc
    generalize offset = o
    revert o
    decide

theorem Encoding.rd (offset : Nat) : Encoding.Statement (.rd offset) := by
  intro h
  have hc := offset_cases h
  refine ⟨_, rfl, ?_⟩
  revert hc
  generalize offset = o
  revert o
  decide

theorem Encoding.wait : Encoding.Statement .wait := fun _ => ⟨_, rfl, by decide⟩

end Sys2Proof.Laws
end

