-- ==== Sys2Proof/Tests/Slice0.lean ====
section
/-! SUPPORT. The model's own tests, each from a table or an example of spec/, and for every obligation with hypotheses a
concrete state and operands that meet them (`test_witness_…`). -/

namespace Sys2Proof.Tests

open Sys2Proof Sys2Proof.Machine

/-! ### Small states -/

/-- The state of a next outcome. -/
def nextState (o : Host.Outcome State Fault Refusal) : Option State :=
  match o with
  | .next s => some s
  | _ => none

/-- The state after an instruction, or `State.reset` where there is none. -/
def after (i : Instr) (s : State) : State := (nextState (exec i s)).getD State.reset

/-- The request of L2.8: "`WBYTES = HBYTES = 1`, `XSCALE = YSCALE = 1`, `XORG = YORG = 0`, `FG = 1`, `BG = 0`". -/
def regs : Regs :=
  { cmd := 0, srcLo := 0x1000, srcHi := 0, wbytes := 1, hbytes := 1, xorg := 0, yorg := 0, xscale := 1, yscale := 1,
    fg := 1, bg := 0 }

/-- An idle block with the request `g`, the surface filled with `fill`, and source bytes from 0x1000 up. -/
def idle (g : Regs) (fill : Byte) (source : List Byte) : State :=
  { State.reset with
    platform := { Config.Platform.default with surfaceFill := .byte fill, sourceFill := .byte 0 }
    regs := g
    source := (source.zipIdx.filter fun c => c.1 ≠ 0).map fun c => (0x1000 + c.2, c.1) }

/-- A bi-level draw of 0xFF at (1, 0), two rows high: `NB = 5`, `H = 2` (BV3 with `YSCALE = 2`). -/
def bi : State := idle { regs with xorg := 1, yscale := 2, fg := 5 } 0xEE#8 [0xFF#8]

/-- `bi` accepted. -/
def biRun : State := after .drawBilevel bi

/-- An engine somewhere in the command of `biRun`. -/
def biAt (row k : Nat) (phase : Phase) : State :=
  { biRun with
    engine := { biRun.engine with row := row, bank := Fin.ofNat 4 row, k := k, phase := phase, hold := 0xEE#8 } }

/-- A multi-level draw of 0x12 0x30 at (0, 0) with `BG` the sentinel (MV1). -/
def ml : State := idle { regs with wbytes := 2, bg := 0x00FF#16 } 0xAA#8 [0x12#8, 0x30#8]

/-- `ml` accepted, unmirrored. -/
def mlRun : State := after (.drawMultilevel false) ml

/-- The largest origin, the largest `FG`, and `BG` the sentinel. -/
def corner : State := idle { regs with xorg := 319, yorg := 199, fg := 15, bg := 0x00FF#16 } 0x00#8 [0xA0#8]

/-- A platform that maps the surface into the source space from 0xB8000 up (R123), with two bytes drawn in row 0. -/
def video (y : Word) : State :=
  { idle { regs with srcLo := 0x8000, srcHi := 0x000B, wbytes := 2, yorg := y } 0xAA#8 [] with
    platform :=
      { Config.Platform.default with
        windows := [{ source := 0xB8000, surface := 0, size := 32768 }]
        surfaceFill := .byte 0xAA#8
        sourceFill := .byte 0 }
    surface := [(0, 0x12#8), (1, 0x30#8)] }

/-- An idle state with canonical memories, on a legal platform, meets the invariant. -/
theorem inv_of_idle {s : State} (hp : s.platform.Legal)
    (hs : (Memory.wf (surfaceUnlisted s.platform) s.surface && Memory.below (surfaceSize s.platform) s.surface) = true)
    (hm : (Memory.wf (sourceUnlisted s.platform) s.source && Memory.below (sourceSize s.platform) s.source) = true)
    (ha : Memory.unaliased s.platform s.source = true) (hst : s.status = Status.reset) : s.Inv := by
  rw [Bool.and_eq_true] at hs hm
  exact
    { platform := hp, surfaceWf := hs.1, surfaceBelow := hs.2, sourceWf := hm.1, sourceBelow := hm.2
      status := by rw [hst]; decide
      running := fun h => by rw [hst] at h; cases h
      sourceUnaliased := ha }

/-- A state that differs from one of the invariant only in `STATUS`, engine and the host's fields meets it, if its command
is a running one. -/
theorem Inv.of_running {s t : State} (h : s.Inv) (hp : t.platform = s.platform) (hs : t.surface = s.surface)
    (hm : t.source = s.source) (hst : t.status.Legal) (hr : Running t.platform t.engine) : t.Inv :=
  { platform := by rw [hp]; exact h.platform
    surfaceWf := by rw [hp, hs]; exact h.surfaceWf
    surfaceBelow := by rw [hp, hs]; exact h.surfaceBelow
    sourceWf := by rw [hp, hm]; exact h.sourceWf
    sourceBelow := by rw [hp, hm]; exact h.sourceBelow
    status := hst
    running := fun _ => hr
    sourceUnaliased := by rw [hp, hm]; exact h.sourceUnaliased }

theorem bi_inv : bi.Inv := inv_of_idle (by decide) (by decide) (by decide) (by decide) rfl

theorem ml_inv : ml.Inv := inv_of_idle (by decide) (by decide) (by decide) (by decide) rfl

theorem corner_inv : corner.Inv := inv_of_idle (by decide) (by decide) (by decide) (by decide) rfl

theorem video_inv (y : Word) : (video y).Inv :=
  inv_of_idle (show (video 0).platform.Legal by decide) (show _ = true from by revert y; exact fun _ => rfl)
    (show _ = true from rfl) rfl rfl

theorem biRun_running : Running biRun.platform biRun.engine :=
  (show biRun.engine = acceptedEngine 0x0001#16 bi by decide) ▸ Running.of_accepted (s := bi) (by decide) (by decide) (by decide)

theorem mlRun_running : Running mlRun.platform mlRun.engine :=
  (show mlRun.engine = acceptedEngine 0x0002#16 ml by decide) ▸ Running.of_accepted (s := ml) (by decide) (by decide) (by decide)

theorem biRun_inv : biRun.Inv := Inv.of_running bi_inv rfl rfl rfl (by decide) biRun_running

theorem mlRun_inv : mlRun.Inv := Inv.of_running ml_inv rfl rfl rfl (by decide) mlRun_running

theorem biRun_noOverlap : NoOverlap biRun.platform biRun.engine := NoOverlap.of_no_windows (by decide) _

/-- `biAt` meets the invariant for every row and span byte of the command. -/
theorem biAt_inv (row k : Nat) (phase : Phase) (hr : row < 2) (hk : k < 5) : (biAt row k phase).Inv := by
  have h := biRun_running
  refine Inv.of_running biRun_inv rfl rfl rfl biRun_inv.status { h with row := ?_, bank := ?_, rowOff := ?_, k := ?_ }
  · exact lt_of_lt_of_eq hr (show 2 = biRun.engine.h by decide)
  · show (Fin.ofNat 4 row).val = (0 + row) % 4
    simp
  · show 0 = (0 + row) / 4 * 160
    omega
  · exact lt_of_lt_of_eq hk (show 5 = spanBytes biRun.engine by decide)

/-- The draw of the two bytes of row 0 into row 8, through the window. -/
def videoRun : State := after (.drawMultilevel false) (video 8)

/-- The draw of the two bytes of row 0 onto themselves. -/
def videoOver : State := after (.drawMultilevel false) (video 0)

theorem videoRun_running : Running videoRun.platform videoRun.engine :=
  (show videoRun.engine = acceptedEngine 0x0002#16 (video 8) by decide) ▸
    Running.of_accepted (s := video 8) (by decide) (by decide) (by decide)

theorem videoOver_running : Running videoOver.platform videoOver.engine :=
  (show videoOver.engine = acceptedEngine 0x0002#16 (video 0) by decide) ▸
    Running.of_accepted (s := video 0) (by decide) (by decide) (by decide)

theorem videoRun_inv : videoRun.Inv := Inv.of_running (video_inv 8) rfl rfl rfl (by decide) videoRun_running

theorem videoOver_inv : videoOver.Inv := Inv.of_running (video_inv 0) rfl rfl rfl (by decide) videoOver_running

/-- The premise of R123 on a platform that maps the source onto the surface. -/
theorem videoRun_noOverlap : NoOverlap videoRun.platform videoRun.engine := by
  intro r j i b hr hj hi _ hb
  have hr' : r < 1 := lt_of_lt_of_eq hr (by decide)
  have hj' : j < 2 := lt_of_lt_of_eq hj (by decide)
  have hi' : i < 1 := lt_of_lt_of_eq hi (by decide)
  have hb' : b ≤ 1 := le_of_le_of_eq hb (by decide)
  interval_cases r <;> interval_cases j <;> interval_cases i <;> interval_cases b <;> decide

/-- A source byte of the draw onto itself is a span byte. -/
theorem videoOver_overlaps : ¬ NoOverlap videoOver.platform videoOver.engine :=
  fun h => h 0 0 0 0 (by decide) (by decide) (by decide) (by decide) (by decide) (by decide)

/-! ### WellFormed: the offset check refuses ill-formed terms (R54) -/

theorem test_wellFormed_refuses_odd_offset : (Instr.wr 0x03 0).wellFormed = false ∧ (Instr.rd 0x01).wellFormed = false := by
  decide

theorem test_wellFormed_refuses_offset_outside_window :
    (Instr.wr 0x20 0).wellFormed = false ∧ (Instr.rd 0x100).wellFormed = false := by decide

theorem test_wellFormed_admits_window : (Instr.wr 0x1E 0xFFFF).wellFormed = true ∧ (Instr.rd 0x00).wellFormed = true := by
  decide

/-! ### Decode: words written out from R55, R57 and R60 -/

/-- Bits 15:2 are 0, `OP` = 01 (R57). -/
theorem test_decode_drawBilevel : decode (.command 0b0000000000000_0_01#16) = .ok .drawBilevel := by decide

/-- Bits 15:3 are 0, `INVX`, `OP` = 10 (R57). -/
theorem test_decode_drawMultilevel :
    decode (.command 0b0000000000000_0_10#16) = .ok (.drawMultilevel false) ∧
    decode (.command 0b0000000000000_1_10#16) = .ok (.drawMultilevel true) := by decide

/-- Data 0x1234 in bits 31:16, the poll flag, bits 14:5 zero, `offset >> 1` = 0b1011 in bits 4:1, bit 0 = 1 (R60). -/
theorem test_decode_wr :
    decode (.stream 0b0001001000110100_0_0000000000_1011_1#32) = .ok (.wr 0x16 0x1234#16) := by decide

theorem test_decode_rd : decode (.stream 0b0000000000000000_0_0000000000_0001_0#32) = .ok (.rd 0x02) := by decide

/-- `rd STATUS` with bit 15 (R60). -/
theorem test_decode_wait : decode (.stream 0b0000000000000000_1_0000000000_0001_0#32) = .ok .wait := by decide

/-- Examples of R58: `OP` = 00, `OP` = 11, `INVX` with the bi-level opcode, a bit of 15:3. -/
theorem test_decode_reserved_commands :
    decode (.command 0x0000#16) = .error (.reservedCommand 0x0000#16) ∧
    decode (.command 0x0003#16) = .error (.reservedCommand 0x0003#16) ∧
    decode (.command 0x0005#16) = .error (.reservedCommand 0x0005#16) ∧
    decode (.command 0x8001#16) = .error (.reservedCommand 0x8001#16) := by decide

theorem test_decode_reserved_stream_words :
    decode (.stream 0x00004001#32) = .error (.reservedStreamBits 0x00004001#32) ∧
    decode (.stream 0x00018002#32) = .error (.pollFlag 0x00018002#32) ∧
    decode (.stream 0x00010002#32) = .error (.dataOnRead 0x00010002#32) := by decide

theorem test_decodeTableWord :
    decodeTableWord 16 0x0006 = some (.drawMultilevel true) ∧ decodeTableWord 32 0x0005000D = some (.wr 0x0C 5#16) ∧
    decodeTableWord 8 0x01 = none := by decide

/-! ### The instructions -/

/-- BV5: `W, H = 4, 1` at x = 316, and `STATUS` is 0x0001 right after the `CMD` write. -/
theorem test_drawBilevel_clamps :
    (after .drawBilevel (idle { regs with xorg := 316, bg := 2 } 0 [0xA5#8])).engine.w = 4 ∧
    statusWord (after .drawBilevel (idle { regs with xorg := 316, bg := 2 } 0 [0xA5#8])).status = 0x0001#16 := by decide

/-- E8: `E_ORIGIN` wins over `E_SCALE`; E4: `FG = 16`. -/
theorem test_drawBilevel_rejected :
    statusWord (after .drawBilevel (idle { regs with xorg := 400, xscale := 0 } 0 [])).status = 0x0008#16 ∧
    statusWord (after .drawBilevel (idle { regs with fg := 16 } 0 [])).status = 0x0010#16 := by decide

/-- E6: `FG` is not checked; MV2 latches the mirror bit. -/
theorem test_drawMultilevel_ignores_fg :
    statusWord (after (.drawMultilevel true) (idle { regs with fg := 16 } 0 [])).status = 0x0001#16 ∧
    (after (.drawMultilevel true) (idle { regs with fg := 16 } 0 [])).engine.latched.invx = true := by decide

/-- E10: `BG = 0x0100` is neither a colour nor the sentinel. Z2: `HBYTES = 0` is done at once. -/
theorem test_drawMultilevel_color_and_empty :
    statusWord (after (.drawMultilevel false) (idle { regs with bg := 0x0100 } 0 [])).status = 0x0010#16 ∧
    statusWord (after (.drawMultilevel false) (idle { regs with hbytes := 0 } 0 [])).status = 0x0002#16 := by decide

/-- `wr XORG, 5` of R60. -/
theorem test_wr_stores : (after (.wr 0x0C 5) bi).regs = { bi.regs with xorg := 5 } := by decide

/-- E11: `E_BAD_OP` wins over `E_ORIGIN`. L2.8 step 3: a `CMD` write while `BUSY = 1` gives 0x0021. -/
theorem test_wr_cmd :
    statusWord (after (.wr 0x00 0x0102) (idle { regs with xorg := 400 } 0 [])).status = 0x0004#16 ∧
    statusWord (after (.wr 0x00 0x0002) biRun).status = 0x0021#16 := by decide

theorem test_rd_records : (after (.rd 0x10) bi).reads = [1#16] ∧ (after (.rd 0x1E) bi).reads = [0#16] := by decide

/-- A `STATUS` read while a command runs is 0x0001 (L1.1). -/
theorem test_rd_status : (after (.rd 0x02) biRun).reads = [0x0001#16] := by decide

theorem test_wait_polls : after .wait biRun = biRun := by decide

/-- A `wait` after a rejected command ends with the rejection code, as in P3. -/
theorem test_wait_ends : (after .wait (after .drawBilevel (idle { regs with xorg := 320 } 0 []))).reads = [0x0008#16] := by
  decide

/-- The word placed by `withFetchWord` is the one the very next step runs: a draw right after reset gives `E_SCALE` (R33). -/
theorem test_withFetchWord :
    (nextState (step (State.reset.withFetchWord 16 0x0006))).map (fun t => statusWord t.status) = some 0x000C#16 ∧
    (nextState (step (biRun.withFetchWord 32 0x00000002))).map (fun t => t.reads) = some [0x0001#16] := by decide

/-! ### The shared operations, against the tables of 95_test_vectors.md -/

/-- L2.1. -/
theorem test_xlate_table :
    xlate 8192 1 0 = ⟨0, 0, 0, 0, 1⟩ ∧ xlate 8192 319 0 = ⟨0, 0, 159, 159, 1⟩ ∧ xlate 8192 0 3 = ⟨3, 0, 0, 24576, 0⟩ ∧
    xlate 8192 0 4 = ⟨0, 160, 0, 160, 0⟩ ∧ xlate 8192 5 7 = ⟨3, 160, 2, 24738, 1⟩ ∧
    xlate 8192 318 196 = ⟨0, 7840, 159, 7999, 0⟩ ∧ xlate 8192 319 199 = ⟨3, 7840, 159, 32575, 1⟩ := by decide

/-- R8: `SURF_ADDR_W` "is 15 for the default `PAGE_SIZE`". -/
theorem test_surfAddrW : surfAddrW Config.Platform.default = 15 := by
  norm_num [surfAddrW, surfaceSize, Config.banks, Config.Platform.default]

/-- L2.2, start row 3: the wrap comes after one row. -/
theorem test_bankStep : (bankStep { Engine.reset with bank := 3 }).bank = 0 ∧
    (bankStep { Engine.reset with bank := 3 }).rowOff = 160 ∧
    (bankStep (bankStep { Engine.reset with bank := 3 })).rowOff = 160 := by decide

/-- L2.4: `x0 = 1, W = 8`; `x0 = 0, W = 3`; `x0 = 319, W = 1`. -/
theorem test_span_table :
    (let e := { Engine.reset with latched := { Latched.reset with x := 1 }, w := 8 }
     (spanBytes e, leadNibbles e, spanPairs e, trailNibbles e) = (5, 1, 3, 1)) ∧
    (let e := { Engine.reset with latched := { Latched.reset with x := 0 }, w := 3 }
     (spanBytes e, leadNibbles e, spanPairs e, trailNibbles e) = (2, 0, 1, 1)) ∧
    (let e := { Engine.reset with latched := { Latched.reset with x := 319 }, w := 1 }
     (spanBytes e, leadNibbles e, spanPairs e, trailNibbles e) = (1, 1, 0, 0)) := by decide

/-- BV3: an odd origin keeps the siblings of its lone nibbles. -/
theorem test_merge_bilevel :
    merge biRun 0 0 0xEE#8 = 0xE5#8 ∧ merge biRun 0 2 0xEE#8 = 0x55#8 ∧ merge biRun 0 4 0xEE#8 = 0x5E#8 := by decide

/-- MV1 and MV2: the copy with a transparent zero nibble, and its mirror. -/
theorem test_merge_multilevel :
    merge mlRun 0 0 0xAA#8 = 0x12#8 ∧ merge mlRun 0 1 0xAA#8 = 0x3A#8 ∧
    merge (after (.drawMultilevel true) ml) 0 0 0xAA#8 = 0xA3#8 ∧
    merge (after (.drawMultilevel true) ml) 0 1 0xAA#8 = 0x21#8 := by decide

/-- MV6: mirrored and clamped, the draw shows the end of the full row (R89). -/
theorem test_merge_mirrored_clamped :
    merge (after (.drawMultilevel true) (idle { regs with wbytes := 2, xorg := 318 } 0 [0x12#8, 0x34#8])) 0 159 0
      = 0x43#8 := by decide

/-- L2.5: `RD 0 (EE)`, then `WR 0 E5`. -/
theorem test_engine_steps :
    (engineRead biRun).engine.hold = 0xEE#8 ∧ (engineWrite (biAt 0 0 .wr)).surface = [(0, 0xE5#8)] := by decide

/-- L2.5: "After the 10th step, `BUSY = 0` and `DONE = 1`", here of the last row. -/
theorem test_engine_completes : statusWord (engineWrite (biAt 1 4 .wr)).status = 0x0002#16 := by decide

/-- R123: through a window the engine reads the surface, and a drawn byte is seen there. -/
theorem test_window_draw :
    memReadSrc (video 8) 0xB8001 = 0x30#8 ∧ merge videoRun 0 0 0xAA#8 = 0x12#8 ∧
    memReadSrc (memWriteSurf (video 8) 320 0x12#8) 0xB8140 = 0x12#8 := by decide

/-- R123: a draw onto its own source has no defined result. -/
theorem test_overlapping_draw_stops : nextState (engineStep videoOver) = none ∧ nextState (engineStep videoRun) ≠ none := by
  decide

/-- A byte written back to what an unlisted index reads as is not listed (BV10's rewrite). -/
theorem test_memory_canonical :
    Memory.write (fun _ => 0x5A#8) [(3, 1#8), (7, 2#8)] 3 0x5A#8 = [(7, 2#8)] ∧
    Memory.write (fun _ => 0x5A#8) [(3, 1#8), (7, 2#8)] 5 9#8 = [(3, 1#8), (5, 9#8), (7, 2#8)] := by decide

/-! ### Witnesses: every obligation's hypotheses are met together -/

theorem test_witness_DecodeOfEncode : (Instr.wr 0x1E 0xFFFF#16).wellFormed = true ∧ (Instr.rd 0x00).wellFormed = true := by
  decide

theorem test_witness_EncodeOfDecode : decode (.stream 0xFFFF001F#32) = .ok (.wr 0x1E 0xFFFF#16) := by decide

/-- Both clauses: an idle block, and a running one whose host has the turn. -/
theorem test_witness_StepRunsDecodedInstruction :
    decode (.stream waitWord) = .ok .wait ∧
    { bi with pending := [.word (.stream waitWord)] }.status.busy = false ∧
    { biRun with pending := [.word (.stream waitWord)], schedule := [.host] }.status.busy = true := by decide

/-- Both clauses, the second with an empty schedule and with one that names the engine. -/
theorem test_witness_StepRunsEngine :
    biRun.status.busy = true ∧ biRun.pending = [] ∧ ([] : List Agent).head? ≠ some .host ∧
    [Agent.engine].head? ≠ some .host ∧ { biRun with pending := [.reset] }.pending ≠ [] := by decide

/-- A request that the bi-level command's checks accept is legal, `FG` included. -/
theorem legalRequest_of_check {s : State} (h : check 0x0001 s = .none) : LegalRequest True s :=
  let l := ((check_eq_none_iff _ _).1 h).2
  { l with fg := fun _ => l.fg rfl }

/-- A request that the multi-level command's checks accept is legal, with any `FG`. -/
theorem legalRequest_of_check_multilevel {s : State} (h : check 0x0002 s = .none) : LegalRequest False s :=
  { ((check_eq_none_iff _ _).1 h).2 with fg := False.elim }

/-- The largest legal origin and `FG`, and the sentinel. -/
theorem test_witness_DrawBilevelAccepted : corner.status.busy = false ∧ LegalRequest True corner :=
  ⟨rfl, legalRequest_of_check (by decide)⟩

/-- The multi-level draw with the largest `FG`, which it ignores. -/
theorem test_witness_DrawMultilevelAccepted :
    { corner with regs := { corner.regs with fg := 0xFFFF } }.status.busy = false ∧
    LegalRequest False { corner with regs := { corner.regs with fg := 0xFFFF } } :=
  ⟨rfl, legalRequest_of_check_multilevel (by decide)⟩

theorem test_witness_EmptyDrawCompletesAtAcceptance :
    (LegalRequest True (idle { regs with wbytes := 0 } 0 []) ∧ (idle { regs with wbytes := 0 } 0 []).regs.wbytes = 0) ∧
    (LegalRequest False (idle { regs with hbytes := 0 } 0 []) ∧ (idle { regs with hbytes := 0 } 0 []).regs.hbytes = 0) :=
  ⟨⟨legalRequest_of_check (by decide), rfl⟩, ⟨legalRequest_of_check_multilevel (by decide), rfl⟩⟩

/-- Each clause at its boundary: a reserved word, origins 320 and 200, a scale of 0, `FG = 16` and `BG = 16`. -/
theorem test_witness_RejectionByPriority :
    encode .drawBilevel = .command 0x0001#16 ∧ encode (.drawMultilevel true) = .command 0x0006#16 ∧
    (0x0003#16 ≠ 0x0001#16 ∧ 0x0003#16 ≠ 0x0002#16 ∧ 0x0003#16 ≠ 0x0006#16) ∧
    bi.status.busy = false ∧ (320#16).toNat > 319 ∧ (200#16).toNat > 199 ∧
    ¬ (bi.regs.xorg.toNat > 319 ∨ bi.regs.yorg.toNat > 199) ∧ ¬ (bi.regs.xscale = 0 ∨ bi.regs.yscale = 0) ∧
    (16#16).toNat > 15 ∧ ¬ ((16#16).toNat ≤ 15 ∨ 16#16 = bi.platform.transparent) := by decide

theorem test_witness_ReservedCommandRejected :
    0x0005#16 ≠ 0x0001#16 ∧ 0x0005#16 ≠ 0x0002#16 ∧ 0x0005#16 ≠ 0x0006#16 ∧
    { bi with pending := [.word (.command 0x0005#16)] }.status.busy = false := by decide

theorem test_witness_CommandWhileBusyDropped :
    biRun.status.busy = true ∧ encode (.drawMultilevel false) = .command 0x0002#16 := by decide

theorem test_witness_CommandWriteIsTheCommand : decode (.command 0x0006#16) = .ok (.drawMultilevel true) := by decide

/-- The three ways the host writes `CMD`: a command word, a raw access and a stream word. -/
theorem test_witness_OnlyCommandWritesRaiseBusy :
    (∀ ev, ev = .word (.command 0x0001#16) ∨ ev = .port 2 0x00 (some 0x0001#16) ∨ ev = .word (.stream 0x00010001#32) →
      ∃ t, step { bi with pending := [ev] } = .next t ∧ t.status.busy = true) ∧ bi.status.busy = false := by
  refine ⟨?_, by decide⟩
  rintro ev (rfl | rfl | rfl) <;> exact ⟨_, rfl, by decide⟩

theorem test_witness_StatusAndReservedOffsets :
    ∀ o ∈ [0x02, 0x18, 0x1A, 0x1C, 0x1E], o = 0x02 ∨ o = 0x18 ∨ o = 0x1A ∨ o = 0x1C ∨ o = 0x1E := by decide

/-- Each clause: an odd offset, the first offset past the window, and a byte-wide access. -/
theorem test_witness_UnsupportedRegisterAccessRefused :
    0x1F % 2 = 1 ∧ 0x20 > 0x1E ∧ 1 ≠ 2 ∧ HostTurn { bi with pending := [.port 1 0x02 none] } :=
  ⟨by decide, by decide, by decide, by decide, by decide⟩

theorem test_witness_WaitReadsStatus : bi.status.busy = false ∧ biRun.status.busy = true := by decide

theorem test_witness_WaitEnds :
    { videoRun with pending := [.word (.stream 0x00008002#32)] }.Inv ∧ videoRun.status.busy = true ∧
    NoOverlap videoRun.platform videoRun.engine :=
  ⟨Inv.of_running videoRun_inv rfl rfl rfl videoRun_inv.status videoRun_running, by decide, videoRun_noOverlap⟩

theorem test_witness_BlitBiLoadsRequest :
    { State.reset with pending := hostProgram (pseudoBlitBi 0x01000 1 1 1 0 0 0 1 1) }.status.busy = false := by decide

theorem test_witness_BlitMlLoadsRequest :
    { State.reset with pending := hostProgram (pseudoBlitMl 0x02000 2 2 0xFF 5 3 1 1 true) }.status.busy = false := by
  decide

/-- A reset of a running block. -/
theorem test_witness_ResetEvent : HostTurn { biRun with pending := [.reset], schedule := [.host] } :=
  ⟨by decide, fun _ => by decide⟩

theorem test_witness_FirstDrawAfterResetRejected : encode (.drawMultilevel true) = .command 0x0006#16 := by decide

/-- The smallest `PAGE_SIZE`, the last pixel, two pixels of one byte, and the last index with a bank offset below 8000. -/
theorem test_witness_TranslatorRangeAndOneToOne :
    ({ Config.Platform.default with pageSize := 8000 } : Config.Platform).Legal ∧ 319 ≤ 319 ∧ 199 ≤ 199 ∧
    (xlate 8000 318 199).idx = (xlate 8000 319 199).idx ∧ 31999 < 4 * 8000 ∧ 31999 % 8000 < 8000 := by decide

theorem test_witness_TranslatorConcatenation : 319 ≤ 319 ∧ 199 ≤ 199 := by decide

theorem test_witness_IncrementalBankCounters :
    { Engine.reset with bank := 3, rowOff := 7680 }.bank.val = 195 % 4 ∧
    { Engine.reset with bank := 3, rowOff := 7680 }.rowOff = 195 / 4 * 160 := by decide

/-- The last column alone. -/
theorem test_witness_SpanSplit : 1 ≤ (after .drawBilevel corner).engine.w ∧
    (after .drawBilevel corner).engine.latched.x.toNat + (after .drawBilevel corner).engine.w ≤ 320 ∧
    spanBytes (after .drawBilevel corner).engine = 1 := by decide

theorem test_witness_ClampedSizesAreLargest :
    corner.status.busy = false ∧ LegalRequest True corner ∧ LegalRequest False corner :=
  ⟨rfl, legalRequest_of_check (by decide), legalRequest_of_check_multilevel (by decide)⟩

/-- Both rasterizers, at the last row and column. -/
theorem test_witness_SourceReadsInsideBitmap :
    (Running biRun.platform biRun.engine ∧ 1 < biRun.engine.h ∧ 7 < biRun.engine.w ∧
      biRun.engine.latched.op = opBilevel) ∧
    (Running mlRun.platform mlRun.engine ∧ 0 < mlRun.engine.h ∧ 3 < mlRun.engine.w ∧
      mlRun.engine.latched.op = opMultilevel) :=
  ⟨⟨biRun_running, by decide, by decide, by decide⟩, ⟨mlRun_running, by decide, by decide, by decide⟩⟩

theorem test_witness_ScalingLaw : 1 < biRun.engine.latched.ys.toNat ∧ 0 < biRun.engine.latched.xs.toNat := by decide

theorem test_witness_MirrorLaw :
    mlRun.engine.latched.op = opMultilevel ∧ mlRun.engine.latched.invx = false ∧ 1 ≤ mlRun.engine.latched.xs.toNat ∧
    mlRun.engine.w = 2 * mlRun.engine.latched.wb.toNat * mlRun.engine.latched.xs.toNat ∧ 3 < mlRun.engine.w := by decide

/-- A column inside the drawn ones, the one before them and the one after them (x = 1, W = 8). -/
theorem test_witness_MergeKeepsUndrawnNibbles :
    (biRun.engine.latched.x.toNat ≤ 2 * 0 + 1 ∧ 2 * 0 + 1 < biRun.engine.latched.x.toNat + biRun.engine.w) ∧
    2 * 0 + 0 < biRun.engine.latched.x.toNat ∧ biRun.engine.latched.x.toNat + biRun.engine.w ≤ 2 * 4 + 1 := by decide

theorem test_witness_EngineReadStep :
    (biRun.Inv ∧ biRun.status.busy = true ∧ NoOverlap biRun.platform biRun.engine ∧ biRun.engine.phase = .rd) ∧
    (videoRun.Inv ∧ NoOverlap videoRun.platform videoRun.engine) :=
  ⟨⟨biRun_inv, by decide, biRun_noOverlap, by decide⟩, videoRun_inv, videoRun_noOverlap⟩

/-- Inside a row, at the end of a row that is not the last, and at the end of the last row. -/
theorem test_witness_EngineWriteStep :
    ((biAt 0 3 .wr).Inv ∧ (biAt 0 3 .wr).engine.k + 1 < spanBytes (biAt 0 3 .wr).engine) ∧
    ((biAt 0 4 .wr).Inv ∧ ¬ (biAt 0 4 .wr).engine.k + 1 < spanBytes (biAt 0 4 .wr).engine ∧
      (biAt 0 4 .wr).engine.row + 1 < (biAt 0 4 .wr).engine.h) ∧
    ((biAt 1 4 .wr).Inv ∧ ¬ (biAt 1 4 .wr).engine.k + 1 < spanBytes (biAt 1 4 .wr).engine ∧
      (biAt 1 4 .wr).engine.row + 1 = (biAt 1 4 .wr).engine.h) ∧ (biAt 1 4 .wr).status.busy = true ∧
    ∀ row k, NoOverlap (biAt row k .wr).platform (biAt row k .wr).engine :=
  ⟨⟨biAt_inv 0 3 .wr (by decide) (by decide), by decide⟩,
    ⟨biAt_inv 0 4 .wr (by decide) (by decide), by decide, by decide⟩,
    ⟨biAt_inv 1 4 .wr (by decide) (by decide), by decide, by decide⟩, by decide,
    fun _ _ => NoOverlap.congr biRun_noOverlap rfl rfl rfl⟩

/-- The start of a running command, a number of steps before its end, a pixel drawn, a pixel beside the rectangle, and an
index that is no span byte. -/
theorem test_witness_CommandIsSurfaceFunction :
    (biRun.Inv ∧ biRun.status.busy = true ∧ NoOverlap biRun.platform biRun.engine ∧
      biRun.engine.row = 0 ∧ biRun.engine.k = 0 ∧ biRun.engine.phase = .rd) ∧
    19 < 2 * spanBytes biRun.engine * biRun.engine.h ∧ inRect biRun.engine 8 1 ∧ ¬ inRect biRun.engine 9 1 ∧
    (∀ i b, i < biRun.engine.h → bfirst biRun.engine ≤ b → b ≤ blast biRun.engine →
      5 ≠ (xlate biRun.platform.pageSize (2 * b) (biRun.engine.latched.y.toNat + i)).idx) := by
  refine ⟨⟨biRun_inv, by decide, biRun_noOverlap, by decide⟩, by decide, by decide, by decide, ?_⟩
  intro i b hi _ hb
  have hi' : i < 2 := lt_of_lt_of_eq hi (by decide)
  have hb' : b ≤ 4 := le_of_le_of_eq hb (by decide)
  interval_cases i <;> interval_cases b <;> decide

/-- No step and all steps, a byte written by then and one that is not. -/
theorem test_witness_AbortedCommandLeavesPrefix :
    (biRun.Inv ∧ biRun.status.busy = true ∧ NoOverlap biRun.platform biRun.engine ∧
      biRun.engine.row = 0 ∧ biRun.engine.k = 0 ∧ biRun.engine.phase = .rd) ∧
    20 ≤ 2 * spanBytes biRun.engine * biRun.engine.h ∧ 1 < biRun.engine.h ∧ bfirst biRun.engine ≤ 4 ∧
    4 ≤ blast biRun.engine := ⟨⟨biRun_inv, by decide, biRun_noOverlap, by decide⟩, by decide⟩

/-- The request at the corner of the screen; its one pixel, and a pixel beside it. -/
theorem test_witness_DrawBilevelDraws :
    corner.Inv ∧ corner.status.busy = false ∧ LegalRequest True corner ∧ corner.regs.wbytes ≠ 0 ∧
    corner.regs.hbytes ≠ 0 ∧ inRect (after .drawBilevel corner).engine 319 199 ∧
    ¬ inRect (after .drawBilevel corner).engine 318 199 ∧
    (∀ a, aliasIndex corner.platform a = none) :=
  ⟨corner_inv, rfl, legalRequest_of_check (by decide), by decide, by decide,
    by decide, by decide, fun _ => rfl⟩

theorem test_witness_DrawMultilevelDraws :
    corner.Inv ∧ corner.status.busy = false ∧ LegalRequest False corner ∧ corner.regs.wbytes ≠ 0 ∧
    corner.regs.hbytes ≠ 0 ∧ inRect (after (.drawMultilevel true) corner).engine 319 199 ∧
    ¬ inRect (after (.drawMultilevel true) corner).engine 319 198 ∧
    (∀ a, aliasIndex corner.platform a = none) :=
  ⟨corner_inv, rfl, legalRequest_of_check_multilevel (by decide), by decide, by decide,
    by decide, by decide, fun _ => rfl⟩

/-- A 2 by 1 bitmap drawn at the corner of the screen with `BG = 0`. -/
def readBack : State := idle { regs with wbytes := 2, xorg := 316, yorg := 199 } 0 [0x12#8, 0x30#8]

theorem readBack_running :
    Running (after (.drawMultilevel false) readBack).platform (after (.drawMultilevel false) readBack).engine :=
  (show (after (.drawMultilevel false) readBack).engine = acceptedEngine 0x0002#16 readBack by decide) ▸
    Running.of_accepted (s := readBack) (by decide) (by decide) (by decide)

theorem test_witness_MultilevelReadBack :
    let s := after (.drawMultilevel false) readBack
    let l := s.engine.latched
    s.Inv ∧ NoOverlap s.platform s.engine ∧
    (s.status.busy = true ∧ s.engine.row = 0 ∧ s.engine.k = 0 ∧ s.engine.phase = .rd) ∧
    (l.op = opMultilevel ∧ l.invx = false ∧ l.bg = 0 ∧ l.xs = 1 ∧ l.ys = 1) ∧
    l.x.toNat + 2 * l.wb.toNat = 320 ∧ l.y.toNat + l.hb.toNat = 200 ∧ l.x.toNat % 2 = 0 ∧ 0 < l.hb.toNat ∧
    1 < l.wb.toNat :=
  ⟨Inv.of_running (s := readBack) (inv_of_idle (by decide) (by decide) (by decide) (by decide) rfl) rfl rfl rfl
    (by decide) readBack_running, NoOverlap.of_no_windows (by decide) _, by decide⟩

theorem test_witness_EngineIgnoresRequestRegisters : ∃ t, engineStep biRun = .next t := ⟨_, rfl⟩

/-- Two states that differ in their surfaces, sources and `HOLD`. -/
theorem test_witness_AccessOrderIndependentOfData :
    let s' : State := { biRun with source := [], surface := [(0, 0#8)], engine := { biRun.engine with hold := 7 } }
    s'.platform.pageSize = biRun.platform.pageSize ∧ s'.platform.srcAddrW = biRun.platform.srcAddrW ∧
    s'.platform.windows = biRun.platform.windows ∧ s'.status = biRun.status ∧
    (∃ hold, s'.engine = { biRun.engine with hold := hold }) ∧ ∃ t, engineStep biRun = .next t :=
  ⟨rfl, rfl, rfl, rfl, ⟨7, rfl⟩, ⟨_, rfl⟩⟩

theorem test_witness_SpanIndexIffSpanByte :
    biRun.platform.Legal ∧ Running biRun.platform biRun.engine ∧
    isSpanIndex biRun.platform biRun.engine 8196 = true ∧ isSpanIndex biRun.platform biRun.engine 5 = false :=
  ⟨biRun_inv.platform, biRun_running, by decide, by decide⟩

/-- A bitmap of two bytes that wraps at the top of the source space. -/
theorem test_witness_SourceByteIffInBitmap :
    let l := { Latched.reset with src := 0xFFFFF#32, wb := 2, hb := 1 }
    l.src.toNat < sourceSize Config.Platform.default ∧ isSourceByte Config.Platform.default l 0 = true ∧
    isSourceByte Config.Platform.default l 0xFFFFF = true ∧ isSourceByte Config.Platform.default l 1 = false := by decide

/-- `biRun` with one host access and the host's turn. -/
def biHost (ev : HostEvent) : State := { biRun with pending := [ev], schedule := [.host] }

theorem biHost_inv (ev : HostEvent) : (biHost ev).Inv :=
  Inv.of_running biRun_inv rfl rfl rfl biRun_inv.status biRun_running

/-- The last span byte of the last row is guarded; the last index of the surface is not. -/
theorem test_witness_HostSurfaceAccess :
    (∀ ev, (biHost ev).Inv ∧ HostTurn (biHost ev)) ∧ 8196 < 4 * 8192 ∧ 32767 < 4 * 8192 ∧
    (biRun.status.busy = true ∧ ∃ i b, i < biRun.engine.h ∧ bfirst biRun.engine ≤ b ∧ b ≤ blast biRun.engine ∧
      8196 = (xlate biRun.platform.pageSize (2 * b) (biRun.engine.latched.y.toNat + i)).idx) ∧
    ¬ (∃ i b, i < biRun.engine.h ∧ bfirst biRun.engine ≤ b ∧ b ≤ blast biRun.engine ∧
      32767 = (xlate biRun.platform.pageSize (2 * b) (biRun.engine.latched.y.toNat + i)).idx) := by
  refine ⟨fun ev => ⟨biHost_inv ev, by simp [biHost], fun _ => rfl⟩, by decide, by decide,
    ⟨by decide, 1, 4, by decide⟩, ?_⟩
  rintro ⟨i, b, hi, _, hb, h⟩
  have hi' : i < 2 := lt_of_lt_of_eq hi (by decide)
  have hb' : b ≤ 4 := le_of_le_of_eq hb (by decide)
  revert h
  interval_cases i <;> interval_cases b <;> decide

/-- The source byte of the command is guarded; the next one is not. -/
theorem test_witness_HostSourceAccess :
    (∀ ev, (biHost ev).Inv ∧ HostTurn (biHost ev)) ∧ 0x1001 < 2 ^ 20 ∧ (∀ a, aliasIndex biRun.platform a = none) ∧
    (biRun.status.busy = true ∧ ∃ r j, r < biRun.engine.latched.hb.toNat ∧ j < biRun.engine.latched.wb.toNat ∧
      0x1000 = (biRun.engine.latched.src.toNat + r * biRun.engine.latched.wb.toNat + j) % 2 ^ biRun.platform.srcAddrW) ∧
    isSourceByte biRun.platform biRun.engine.latched 0x1001 = false :=
  ⟨fun ev => ⟨biHost_inv ev, by simp [biHost], fun _ => rfl⟩, by decide, fun _ => rfl,
    ⟨by decide, 0, 0, by decide⟩, by decide⟩

/-- The other guarded write: surface byte 1 is a source byte, and no span byte, of the draw of row 0 into row 8. -/
theorem test_witness_HostSurfaceAccess_source :
    { videoRun with pending := [.surfaceWrite 1 0], schedule := [.host] }.Inv ∧
    HostTurn { videoRun with pending := [.surfaceWrite 1 0], schedule := [.host] } ∧
    isSpanIndex videoRun.platform videoRun.engine 1 = false ∧
    aliasIndex videoRun.platform (sourceAddr videoRun.platform videoRun.engine.latched 0 1) = some 1 :=
  ⟨Inv.of_running videoRun_inv rfl rfl rfl videoRun_inv.status videoRun_running, ⟨by decide, fun _ => by decide⟩,
    by decide, by decide⟩

theorem test_witness_SourceIndexIffAliasedBitmap :
    videoRun.engine.latched.src.toNat < sourceSize videoRun.platform ∧
    isSourceIndex videoRun.platform videoRun.engine.latched 1 = true ∧
    isSourceIndex videoRun.platform videoRun.engine.latched 2 = false := by decide

theorem test_witness_OverlappingCommandStops :
    videoOver.Inv ∧ videoOver.status.busy = true ∧ ¬ NoOverlap videoOver.platform videoOver.engine :=
  ⟨videoOver_inv, by decide, videoOver_overlaps⟩

/-- The first and the last byte of the window, idle and running. -/
theorem test_witness_AliasedAccessIsSurfaceAccess :
    (video 8).Inv ∧ videoRun.Inv ∧ (video 8).status.busy = false ∧ [Agent.host].head? = some .host ∧
    aliasIndex (video 8).platform 0xB8000 = some 0 ∧ aliasIndex videoRun.platform 0xBFFFF = some 32767 :=
  ⟨video_inv 8, videoRun_inv, by decide, by decide, by decide, by decide⟩

/-- A byte changed by the engine and a byte changed by the host, directly and through a window. -/
theorem test_witness_OnlySpanBytesChange :
    ((biAt 0 0 .wr).Inv ∧ ∃ t, step (biAt 0 0 .wr) = .next t ∧ memReadSurf t 0 ≠ memReadSurf (biAt 0 0 .wr) 0) ∧
    ((biHost (.surfaceWrite 32767 1)).Inv ∧ ∃ t, step (biHost (.surfaceWrite 32767 1)) = .next t ∧
      memReadSurf t 32767 ≠ memReadSurf (biHost (.surfaceWrite 32767 1)) 32767) ∧
    (∃ t, step { video 8 with pending := [.sourceWrite 0xBFFFF 1] } = .next t ∧
      memReadSurf t 32767 ≠ memReadSurf (video 8) 32767) :=
  ⟨⟨biAt_inv 0 0 .wr (by decide) (by decide), _, rfl, by decide⟩, ⟨biHost_inv _, _, rfl, by decide⟩,
    ⟨_, rfl, by decide⟩⟩

theorem test_witness_SourceIsReadOnlyToTheBlock :
    (∃ t, step biRun = .next t) ∧ ∃ t, step (biHost (.sourceWrite 0x1001 1)) = .next t := ⟨⟨_, rfl⟩, ⟨_, rfl⟩⟩

theorem test_witness_StepKeepsInvariant : (biAt 1 4 .wr).Inv ∧ ∃ t, step (biAt 1 4 .wr) = .next t :=
  ⟨biAt_inv 1 4 .wr (by decide) (by decide), _, rfl⟩

theorem test_witness_RunningEngineNeverFaults :
    videoRun.Inv ∧ NoOverlap videoRun.platform videoRun.engine ∧ EngineTurn videoRun :=
  ⟨videoRun_inv, videoRun_noOverlap, by decide, fun h => h.1 (by decide)⟩

end Sys2Proof.Tests
end

section
/-! SUPPORT. The invariant of the machine, operation by operation: the host's bookkeeping, a memory write, the issue of a
command, reset, and the engine's two halves each keep `State.Inv`. `stepKeepsInvariant` puts them together along the
inversions of Laws/Ops.lean. -/

namespace Sys2Proof.Machine

variable {s t : State}

/-! ### What the invariant reads -/

/-- A state with the memories of one of the invariant meets it, if its `STATUS` is legal and its command a running one. -/
theorem State.Inv.of_memories_eq (h : s.Inv) (hp : t.platform = s.platform) (hs : t.surface = s.surface)
    (hm : t.source = s.source) (hst : t.status.Legal)
    (hr : t.status.busy = true → Running s.platform t.engine) : t.Inv where
  platform := hp ▸ h.platform
  surfaceWf := by rw [hp, hs]; exact h.surfaceWf
  surfaceBelow := by rw [hp, hs]; exact h.surfaceBelow
  sourceWf := by rw [hp, hm]; exact h.sourceWf
  sourceBelow := by rw [hp, hm]; exact h.sourceBelow
  status := hst
  running := hp ▸ hr
  sourceUnaliased := by rw [hp, hm]; exact h.sourceUnaliased

/-- The invariant reads neither the request registers nor the host agent's fields. -/
theorem State.Inv.of_block_eq (h : s.Inv) (hp : t.platform = s.platform) (hs : t.surface = s.surface)
    (hm : t.source = s.source) (hst : t.status = s.status) (he : t.engine = s.engine) : t.Inv :=
  h.of_memories_eq hp hs hm (hst ▸ h.status) (by rw [hst, he]; exact h.running)

theorem takeTurn_keeps_inv (h : s.Inv) : (takeTurn s).Inv :=
  h.of_block_eq (by simp) (by simp) (by simp) (by simp) (by simp)

theorem advance_keeps_inv (h : s.Inv) : (advance s).Inv := h.of_block_eq rfl rfl rfl rfl rfl

/-! ### The memories -/

theorem memWriteSurf_keeps_inv (h : s.Inv) {idx : Nat} (v : Byte) (hi : idx < surfaceSize s.platform) :
    (memWriteSurf s idx v).Inv :=
  { h with
    surfaceWf := Memory.wf_write h.surfaceWf idx v
    surfaceBelow := Memory.below_write h.surfaceBelow v hi }

theorem hostWriteSrc_keeps_inv (h : s.Inv) {a : Nat} (v : Byte) (hn : aliasIndex s.platform a = none)
    (ha : a < sourceSize s.platform) : (hostWriteSrc s a v).Inv := by
  rw [hostWriteSrc_of_none hn]
  exact
    { h with
      sourceWf := Memory.wf_write h.sourceWf a v
      sourceBelow := Memory.below_write h.sourceBelow v ha
      sourceUnaliased := Memory.unaliased_write h.sourceUnaliased v hn }

/-! ### Register writes and reset -/

/-- Acceptance makes a legal `STATUS`, running or completed (R17, R97). -/
theorem setAccepted_legal (empty : Bool) :
    (setAccepted empty { busy := false, done := false, err := .none, ovr := false }).Legal := by
  cases empty <;> decide

/-- A rejected command leaves a legal `STATUS` and an idle engine, an accepted one that is not empty a running engine
(R97 to R99). -/
theorem onCmdWrite_keeps_inv (h : s.Inv) (v : Word) : (onCmdWrite v s).Inv := by
  cases hb : s.status.busy with
  | true =>
    rw [onCmdWrite_busy hb]
    obtain ⟨hbusy, hdone, -⟩ := h.status
    exact h.of_memories_eq rfl rfl rfl ⟨hbusy, hdone, fun _ => .inl hb⟩ h.running
  | false =>
    by_cases hc : check v s = .none
    · rw [onCmdWrite_accepted hb hc]
      refine h.of_memories_eq rfl rfl rfl (setAccepted_legal _) fun hbusy => ?_
      cases hempty : (acceptedEngine v s).w == 0 || (acceptedEngine v s).h == 0 with
      | true => simp [hempty, setAccepted] at hbusy
      | false =>
        simp only [Bool.or_eq_false_iff, beq_eq_false_iff_ne] at hempty
        exact Running.of_accepted hc hempty.1 hempty.2
    · rw [onCmdWrite_rejected hb rfl hc]
      exact h.of_memories_eq rfl rfl rfl ⟨nofun, nofun, nofun⟩ nofun

/-- A write to any register but `CMD` is its store alone (R15, R17, R27). -/
theorem writeReg_of_ne_cmd {r : Reg} (hr : r ≠ .cmd) (v : Word) (s : State) :
    writeReg r v s = { s with regs := storeReg r v s.regs } := by
  cases r with
  | cmd => exact absurd rfl hr
  | _ => rfl

theorem writeReg_keeps_inv (h : s.Inv) (r : Reg) (v : Word) : (writeReg r v s).Inv := by
  by_cases hr : r = .cmd
  · subst hr
    exact onCmdWrite_keeps_inv h v
  · rw [writeReg_of_ne_cmd hr]
    exact h.of_block_eq rfl rfl rfl rfl rfl

theorem applyReset_keeps_inv (h : s.Inv) : (applyReset s).Inv :=
  h.of_memories_eq rfl rfl rfl (by simp only [applyReset_status]; decide) nofun

/-! ### The engine -/

/-- Completion of a running command leaves a legal `STATUS` (R80). -/
theorem setComplete_legal {st : Status} (h : st.Legal) (hb : st.busy = true) : (setComplete st).Legal := by
  obtain ⟨hbusy, -, -⟩ := h
  exact ⟨nofun, fun _ => (hbusy hb).2, fun _ => .inr rfl⟩

/-- The bank counter wraps after bank 3 (R67). -/
theorem bankStep_bank (e : Engine) : (bankStep e).bank.val = (e.bank.val + 1) % 4 := by
  unfold bankStep
  split
  · next h => simp [h]
  · exact Fin.val_add e.bank 1

/-- The row offset advances by a row when the bank counter wraps (R67). -/
theorem bankStep_rowOff (e : Engine) :
    (bankStep e).rowOff = if e.bank.val = 3 then e.rowOff + 160 else e.rowOff := by
  unfold bankStep
  by_cases h : e.bank = 3
  · simp [h, Config.rowBytes]
  · have hval : e.bank.val ≠ 3 := fun hv => h (Fin.ext hv)
    simp [h, hval]

/-- A running engine with other counters for the same command runs too, if they agree with the request. -/
theorem Running.of_counters {p : Config.Platform} {e e' : Engine} (h : Running p e)
    (hl : e'.latched = e.latched) (hw : e'.w = e.w) (hh : e'.h = e.h) (hrow : e'.row < e'.h)
    (hbank : e'.bank.val = (e'.latched.y.toNat + e'.row) % 4)
    (hoff : e'.rowOff = (e'.latched.y.toNat + e'.row) / 4 * 160) (hk : e'.k < spanBytes e') : Running p e' := by
  obtain ⟨l, w, height, row, bank, rowOff, k, phase, hold⟩ := e'
  dsimp only at hl hw hh
  subst hl hw hh
  exact { h with row := hrow, bank := hbank, rowOff := hoff, k := hk }

/-- The counters of the next span byte of a row. -/
theorem Running.nextByte {p : Config.Platform} {e : Engine} (h : Running p e) (hk : e.k + 1 < spanBytes e) :
    Running p { e with phase := .rd, k := e.k + 1 } :=
  { h with k := hk }

/-- The counters at the start of the next row: the incremental ones agree with the row's own (R67, R79). -/
theorem Running.nextRow {p : Config.Platform} {e : Engine} (h : Running p e) (hrow : e.row + 1 < e.h) :
    Running p (bankStep { e with phase := .rd, k := 0, row := e.row + 1 }) := by
  have hbank := h.bank
  refine h.of_counters (by simp) (by simp) (by simp) (by simpa using hrow) ?_ ?_ ?_
  · rw [bankStep_bank, bankStep_latched, bankStep_row]
    dsimp only
    omega
  · rw [bankStep_rowOff, bankStep_latched, bankStep_row]
    dsimp only
    rw [h.rowOff]
    split <;> omega
  · rw [bankStep_k]
    exact Nat.succ_pos _

theorem engineRead_keeps_inv (h : s.Inv) : (engineRead s).Inv :=
  h.of_memories_eq rfl rfl rfl h.status fun hb => { h.running hb with }

/-- The `WR` half goes on inside the row, starts the next row, or completes the command (R79, R80). -/
theorem engineWrite_keeps_inv (h : s.Inv) (hb : s.status.busy = true) : (engineWrite s).Inv := by
  have hr := h.running hb
  have hw := memWriteSurf_keeps_inv h (merge s s.engine.row (currentByte s.engine) s.engine.hold)
    (currentIndex_lt h.platform hr)
  by_cases hk : s.engine.k + 1 < spanBytes s.engine
  · rw [engineWrite_inRow hk]
    exact hw.of_memories_eq rfl rfl rfl h.status fun _ => hr.nextByte hk
  · rw [engineWrite_rowEnd hk]
    by_cases hlast : s.engine.row + 1 = s.engine.h
    · rw [if_pos hlast]
      exact hw.of_memories_eq rfl rfl rfl (setComplete_legal h.status hb) nofun
    · rw [if_neg hlast]
      exact hw.of_memories_eq rfl rfl rfl h.status fun _ => hr.nextRow (by have := hr.row; omega)

theorem engineStep_keeps_inv (h : s.Inv) (hs : engineStep s = .next t) : t.Inv := by
  have outcome := engineStep_outcome s
  rw [hs] at outcome
  cases outcome with
  | idle => exact h
  | read => exact engineRead_keeps_inv h
  | write hb => exact engineWrite_keeps_inv h hb

/-! ### One step of the machine -/

theorem EventNext.keeps_inv {ev : HostEvent} (hn : EventNext ev s t) (h : s.Inv) : t.Inv := by
  cases hn with
  | writeReg r v => exact advance_keeps_inv (writeReg_keeps_inv h r v)
  | readReg r => exact h.of_block_eq rfl rfl rfl rfl rfl
  | poll => exact h
  | readMemory v => exact h.of_block_eq rfl rfl rfl rfl rfl
  | writeSurface idx v _ hi => exact advance_keeps_inv (memWriteSurf_keeps_inv h v hi)
  | writeSource a v _ hn ha => exact advance_keeps_inv (hostWriteSrc_keeps_inv h v hn ha)
  | reset => exact advance_keeps_inv (applyReset_keeps_inv h)

/-- Settles O54, by the three kinds of step: the host's event, the engine's access, or waiting. -/
theorem stepKeepsInvariant : Obligations.StepKeepsInvariant := by
  intro s t h hs
  obtain ⟨-, ev, rest, -, hstep⟩ | ⟨-, hstep⟩ | ⟨-, -, hstep⟩ := step_cases s
  all_goals rw [hstep] at hs
  · exact (runEvent_next hs).keeps_inv (takeTurn_keeps_inv h)
  · exact engineStep_keeps_inv (takeTurn_keeps_inv h) hs
  · cases hs
    exact h

/-- Settles O53: the memories list nothing, the parameters are the spec's defaults, and no command runs. -/
theorem invariantAtReset : Obligations.InvariantAtReset where
  platform := by decide
  surfaceWf := rfl
  surfaceBelow := rfl
  sourceWf := rfl
  sourceBelow := rfl
  status := by decide
  running := nofun
  sourceUnaliased := rfl

end Sys2Proof.Machine
end

section
/-! SUPPORT. The engine and the request registers: `engineStep` neither reads nor writes them (R15, R29). -/

namespace Sys2Proof.Machine

/-- An engine that does not run stays as it is (R78). -/
theorem engineStep_of_idle {s : State} (hb : s.status.busy = false) : engineStep s = .next s := by
  simp [engineStep, hb]

theorem engineRead_withRegs (s : State) (g : Regs) :
    engineRead { s with regs := g } = { engineRead s with regs := g } := rfl

theorem engineWrite_withRegs (s : State) (g : Regs) :
    engineWrite { s with regs := g } = { engineWrite s with regs := g } := by
  by_cases hk : s.engine.k + 1 < spanBytes s.engine
  · rw [engineWrite_inRow hk, engineWrite_inRow (s := { s with regs := g }) hk]
    rfl
  · rw [engineWrite_rowEnd hk, engineWrite_rowEnd (s := { s with regs := g }) hk]
    rfl

/-- Settles O42: both halves of the engine's step and all its guards are the same whatever the registers hold. -/
theorem engineIgnoresRequestRegisters : Obligations.EngineIgnoresRequestRegisters := by
  intro s t g hs
  have outcome := engineStep_outcome s
  rw [hs] at outcome
  cases outcome with
  | idle hb => exact engineStep_of_idle hb
  | read hb hr ho hi hp =>
    rw [engineStep_of_running (s := { s with regs := g }) hb hr ho hi, if_pos hp, engineRead_withRegs]
  | write hb hr ho hi hp =>
    rw [engineStep_of_running (s := { s with regs := g }) hb hr ho hi, if_neg (by simp [hp]), engineWrite_withRegs]

end Sys2Proof.Machine
end

section
/-! SUPPORT. The host's register accesses: what `wr` and `rd` of each register do, the fields of `STATUS`, and the `CMD`
write of a command word as the command it decodes to. -/

namespace Sys2Proof.Machine

/-! ### Writes and reads of the window -/

/-- A write to any register but `CMD` is its store (R15, R17, R27). -/
theorem exec_wr_of_ne_cmd {offset : Nat} {r : Reg} (hat : regAt offset = some r) (hr : r ≠ .cmd) (v : Word)
    (s : State) :
    exec (.wr offset v) s = .next { s with regs := storeReg r v s.regs, pending := s.pending.tail } := by
  simp only [exec, execWr, hat, writeReg_of_ne_cmd hr]
  rfl

/-- A read of a register records its value (R46). -/
theorem exec_rd_of_regAt {offset : Nat} {r : Reg} (hat : regAt offset = some r) (s : State) :
    exec (.rd offset) s = .next { s with reads := s.reads ++ [readReg s r], pending := s.pending.tail } := by
  simp only [exec, execRd, hat]
  rfl

/-- The four reserved offsets (R27). -/
theorem regAt_reserved {offset : Nat} (h : offset = 0x18 ∨ offset = 0x1A ∨ offset = 0x1C ∨ offset = 0x1E) :
    regAt offset = some .reserved := by
  rcases h with rfl | rfl | rfl | rfl <;> rfl

/-- Settles O15: each of the ten offsets is a register with storage. -/
theorem requestRegisterWriteStores : Obligations.RequestRegisterWriteStores := fun s v =>
  ⟨exec_wr_of_ne_cmd (r := .srcLo) rfl nofun v s, exec_wr_of_ne_cmd (r := .srcHi) rfl nofun v s,
    exec_wr_of_ne_cmd (r := .wbytes) rfl nofun v s, exec_wr_of_ne_cmd (r := .hbytes) rfl nofun v s,
    exec_wr_of_ne_cmd (r := .xorg) rfl nofun v s, exec_wr_of_ne_cmd (r := .yorg) rfl nofun v s,
    exec_wr_of_ne_cmd (r := .xscale) rfl nofun v s, exec_wr_of_ne_cmd (r := .yscale) rfl nofun v s,
    exec_wr_of_ne_cmd (r := .fg) rfl nofun v s, exec_wr_of_ne_cmd (r := .bg) rfl nofun v s⟩

/-- Settles O16: `STATUS` and the reserved offsets have no storage, and the latter read as 0. -/
theorem statusAndReservedOffsets : Obligations.StatusAndReservedOffsets := by
  intro s v offset
  constructor
  · rintro (rfl | hreserved)
    · exact exec_wr_of_ne_cmd (r := .status) rfl nofun v s
    · exact exec_wr_of_ne_cmd (regAt_reserved hreserved) nofun v s
  · exact fun hreserved => exec_rd_of_regAt (regAt_reserved hreserved) s

/-- Settles O17, register by register along the map of R14. -/
theorem registerReadRecords : Obligations.RegisterReadRecords := fun s =>
  ⟨exec_rd_of_regAt (r := .cmd) rfl s, exec_rd_of_regAt (r := .status) rfl s,
    exec_rd_of_regAt (r := .srcLo) rfl s, exec_rd_of_regAt (r := .srcHi) rfl s,
    exec_rd_of_regAt (r := .wbytes) rfl s, exec_rd_of_regAt (r := .hbytes) rfl s,
    exec_rd_of_regAt (r := .xorg) rfl s, exec_rd_of_regAt (r := .yorg) rfl s,
    exec_rd_of_regAt (r := .xscale) rfl s, exec_rd_of_regAt (r := .yscale) rfl s,
    exec_rd_of_regAt (r := .fg) rfl s, exec_rd_of_regAt (r := .bg) rfl s,
    exec_rd_of_regAt (r := .reserved) rfl s, exec_rd_of_regAt (r := .reserved) rfl s,
    exec_rd_of_regAt (r := .reserved) rfl s, exec_rd_of_regAt (r := .reserved) rfl s⟩

/-! ### The value of a `STATUS` read -/

/-- Every bit of a `STATUS` read: the parts of the concatenation of R17, from bit 0 up. -/
theorem statusWord_getLsbD (st : Status) (i : Nat) :
    (statusWord st).getLsbD i =
      if i < 1 then st.busy
      else if i < 2 then st.done
      else if i < 5 then (errCode st.err).getLsbD (i - 2)
      else if i < 6 then st.ovr
      else false := by
  have parts : statusWord st =
      (0#10 ++ BitVec.ofBool st.ovr ++ errCode st.err ++ BitVec.ofBool st.done ++ BitVec.ofBool st.busy :
        BitVec (10 + 1 + 3 + 1 + 1)) := rfl
  rw [parts]
  simp only [BitVec.getLsbD_append, BitVec.getLsbD_ofBool, BitVec.getLsbD_zero]
  grind

theorem statusWord_err (st : Status) : (statusWord st).extractLsb' 2 3 = errCode st.err := by
  ext i hi
  rw [BitVec.getElem_extractLsb', statusWord_getLsbD, if_neg (by omega), if_neg (by omega), if_pos (by omega),
    Nat.add_sub_cancel_left, BitVec.getLsbD_eq_getElem]

/-- Settles O18, bit by bit. -/
theorem statusWordFields : Obligations.StatusWordFields := by
  intro st
  refine ⟨statusWord_getLsbD st 0, statusWord_getLsbD st 1, ?_, statusWord_getLsbD st 5, ?_⟩
  · rw [statusWord_err]
    cases st.err <;> rfl
  · ext i hi
    rw [BitVec.getElem_extractLsb', statusWord_getLsbD, if_neg (by omega), if_neg (by omega), if_neg (by omega),
      if_neg (by omega)]
    simp

/-! ### Command words -/

/-- The two words that pass the mask of R57, told apart by `INVX`. -/
theorem eq_multilevelCommand_of_mask {v : Word} (h : v &&& 0xFFFB#16 = 0x0002#16) :
    v = multilevelCommand (v.getLsbD 2) := by
  calc v = v &&& (0xFFFB#16 ||| BitVec.twoPow 16 2) := BitVec.and_allOnes.symm
    _ = (v &&& 0xFFFB#16) ||| (v &&& BitVec.twoPow 16 2) := BitVec.and_or_distrib_left
    _ = multilevelCommand (v.getLsbD 2) := by
      rw [h, BitVec.and_twoPow]
      cases v.getLsbD 2 <;> rfl

/-- The instruction a command word decodes to is encoded by that word (R57). -/
theorem encode_of_decodeCommand {v : Word} {i : Instr} (h : decodeCommand v = .ok i) : encode i = .command v := by
  unfold decodeCommand at h
  split at h
  · next hv =>
    cases h
    rw [hv]
    rfl
  · split at h
    · next hmask =>
      cases h
      exact congrArg HostWord.command (eq_multilevelCommand_of_mask hmask).symm
    · cases h

/-- An instruction with a command word is the `CMD` write of it (R16, R54). -/
theorem exec_of_encode_command {i : Instr} {v : Word} (h : encode i = .command v) (s : State) :
    exec i s = .next (advance (onCmdWrite v s)) := by
  cases i <;> cases h <;> rfl

/-- An instruction's command word is one of the three accepted ones (R57). -/
theorem legalCommand_of_encode {i : Instr} {v : Word} (h : encode i = .command v) : legalCommand v = true := by
  cases i with
  | drawBilevel => cases h; rfl
  | drawMultilevel invx => cases h; cases invx <;> rfl
  | wr _ _ => cases h
  | rd _ => cases h
  | wait => cases h

/-- Settles O13: the write and the command are both the `CMD` write of the word. -/
theorem commandWriteIsTheCommand : Obligations.CommandWriteIsTheCommand := by
  intro s v i h
  rw [exec_of_encode_command (encode_of_decodeCommand h)]
  rfl

/-! ### The first draw after reset -/

/-- After reset both scales are 0 and the origin is on the screen, so the checks of R96 end at the scale. -/
theorem check_reset {v : Word} (hv : legalCommand v = true) : check v State.reset = .scale := by
  simp [check_eq, hv, State.reset, Regs.reset]

/-- Settles O25: the command word is a legal one, so the checks get as far as the scale (R102). -/
theorem firstDrawAfterResetRejected : Obligations.FirstDrawAfterResetRejected := by
  intro i cmd hcmd
  have hcheck := check_reset (legalCommand_of_encode hcmd)
  have hrejected := onCmdWrite_rejected (s := State.reset) rfl hcheck nofun
  have hword : statusWord { busy := false, done := false, err := .scale, ovr := false } = 0x000C#16 := by decide
  refine ⟨_, exec_of_encode_command hcmd _, ?_⟩
  rw [hrejected]
  exact ⟨hword, rfl, rfl, rfl⟩

end Sys2Proof.Machine
end

section
/-! SUPPORT. What a step can and cannot touch: the register window has no byte-wide, odd or outer access, a running
command reads its own bitmap, the surface changes at the current span byte or by a host write, and the source memory by
a host write alone (R41, R44, R46, R48). -/

namespace Sys2Proof.Machine

/-- The host's step is the event at the head of its accesses. -/
theorem step_of_hostTurn {s : State} {ev : HostEvent} {rest : List HostEvent} (h : HostTurn s)
    (hp : s.pending = ev :: rest) : step s = runEvent ev (takeTurn s) := by
  simp [step, runTurn, mover_host h, hostStep, hp]

/-! ### The register window -/

/-- Every register stands at an even offset of the window (R14). -/
theorem offset_of_regAt {offset : Nat} {r : Reg} (h : regAt offset = some r) : offset % 2 = 0 ∧ offset ≤ 0x1E := by
  unfold regAt at h
  split at h
  case h_17 => cases h
  all_goals decide

theorem regAt_eq_none {offset : Nat} (h : offset % 2 = 1 ∨ offset > 0x1E) : regAt offset = none := by
  cases hat : regAt offset with
  | none => rfl
  | some r =>
    have := offset_of_regAt hat
    omega

/-- Settles O19: no register stands at such an offset, and a raw access is 16 bits wide or refused. -/
theorem unsupportedRegisterAccessRefused : Obligations.UnsupportedRegisterAccessRefused := by
  intro s offset v
  constructor
  · intro hoff
    have hat := regAt_eq_none hoff
    exact ⟨by simp [exec, execWr, hat], by simp [exec, execRd, hat]⟩
  · intro bytes value rest hbytes hp hturn
    rw [step_of_hostTurn hturn hp]
    simp [runEvent, runPort, hbytes]

/-! ### The bitmap of a running command -/

/-- Byte `j` of source row `r` is one of the bytes the request describes: its distance from `L.src` around the space is
at most `r * WB + j` (R40, R41). -/
theorem isSourceByte_sourceAddr {p : Config.Platform} {l : Latched} (hsrc : l.src.toNat < sourceSize p) {r j : Nat}
    (hr : r < l.hb.toNat) (hj : j < l.wb.toNat) : isSourceByte p l (sourceAddr p l r j) = true := by
  have hdist : (sourceAddr p l r j + (sourceSize p - l.src.toNat % sourceSize p)) % sourceSize p ≤
      r * l.wb.toNat + j := by
    rw [sourceAddr, Nat.mod_eq_of_lt hsrc, Nat.mod_add_mod,
      show l.src.toNat + r * l.wb.toNat + j + (sourceSize p - l.src.toNat) = r * l.wb.toNat + j + sourceSize p by omega,
      Nat.add_mod_right]
    exact Nat.mod_le _ _
  have hinside : r * l.wb.toNat + j < l.wb.toNat * l.hb.toNat :=
    calc r * l.wb.toNat + j < (r + 1) * l.wb.toNat := by rw [Nat.succ_mul]; omega
      _ ≤ l.hb.toNat * l.wb.toNat := Nat.mul_le_mul_right _ hr
      _ = l.wb.toNat * l.hb.toNat := Nat.mul_comm _ _
  simp only [isSourceByte, Bool.and_eq_true, decide_eq_true_eq]
  exact ⟨Nat.mod_lt _ (Nat.zero_lt_of_lt hsrc), by omega⟩

/-- Mirrored or not, a scan column of the full row gives a column of it (R89). -/
theorem multilevelColumn_lt {l : Latched} {j : Nat} (h : scanColumn l j < 2 * l.wb.toNat) :
    multilevelColumn l j < 2 * l.wb.toNat := by
  unfold multilevelColumn
  split <;> omega

/-- Settles O31: row and column are inside the bitmap, so the byte that holds the pixel is. -/
theorem sourceReadsInsideBitmap : Obligations.SourceReadsInsideBitmap := by
  intro p e i j h hi hj
  have hrow := h.sourceRow_lt hi
  have hcol := h.scanColumn_lt hj
  refine ⟨hrow, hcol, fun hop => ?_, fun hop => ?_⟩
  · rw [hop, show pixelsPerByte opBilevel = 8 from rfl] at hcol
    exact isSourceByte_sourceAddr h.src hrow (Nat.div_lt_of_lt_mul hcol)
  · rw [hop, show pixelsPerByte opMultilevel = 2 from rfl] at hcol
    exact isSourceByte_sourceAddr h.src hrow (Nat.div_lt_of_lt_mul (multilevelColumn_lt hcol))

/-! ### Changes of the surface -/

/-- A surface read depends on the parameters and the surface alone. -/
theorem memReadSurf_congr {s t : State} (hp : t.platform = s.platform) (hs : t.surface = s.surface) (a : Nat) :
    memReadSurf t a = memReadSurf s a := by
  rw [memReadSurf, memReadSurf, hp, hs]

@[simp] theorem memReadSurf_takeTurn (s : State) (a : Nat) : memReadSurf (takeTurn s) a = memReadSurf s a :=
  memReadSurf_congr (takeTurn_platform s) (takeTurn_surface s) a

/-- The `WR` half changes the current span byte alone (R46, R78). -/
theorem memReadSurf_engineWrite {s : State} (h : Memory.wf (surfaceUnlisted s.platform) s.surface = true) (a : Nat) :
    memReadSurf (engineWrite s) a =
      if currentIndex s = a then merge s s.engine.row (currentByte s.engine) s.engine.hold else memReadSurf s a := by
  rw [memReadSurf, engineWrite_platform, engineWrite_surface]
  exact Memory.read_write h _ _ a

/-- A byte that an engine step changes is the current span byte of a running command. -/
theorem engineStep_changes_current {s t : State} (h : Memory.wf (surfaceUnlisted s.platform) s.surface = true)
    (hs : engineStep s = .next t) {a : Nat} (hne : memReadSurf t a ≠ memReadSurf s a) :
    s.status.busy = true ∧ a = currentIndex s := by
  have outcome := engineStep_outcome s
  rw [hs] at outcome
  cases outcome with
  | idle => exact absurd rfl hne
  | read => exact absurd rfl hne
  | write hb =>
    refine ⟨hb, ?_⟩
    by_contra ha
    exact hne (by rw [memReadSurf_engineWrite h, if_neg (Ne.symm ha)])

/-- A byte that an event of the host changes is one that it writes, directly or through a window. -/
theorem EventNext.changes_written {ev : HostEvent} {s t : State} (hn : EventNext ev s t)
    (h : Memory.wf (surfaceUnlisted s.platform) s.surface = true) {a : Nat}
    (hne : memReadSurf t a ≠ memReadSurf s a) :
    ∃ v, ev = .surfaceWrite a v ∨ ∃ x, aliasIndex s.platform x = some a ∧ ev = .sourceWrite x v := by
  cases hn with
  | writeReg r v => exact absurd (memReadSurf_congr (by simp) (by simp) a) hne
  | readReg => exact absurd rfl hne
  | poll => exact absurd rfl hne
  | readMemory => exact absurd rfl hne
  | writeSurface idx v hev =>
    have hidx : idx = a := by
      by_contra hidx
      exact hne ((memReadSurf_memWriteSurf h idx v a).trans (if_neg hidx))
    subst hidx
    exact ⟨v, hev.imp_right fun ⟨x, hx, halias⟩ => ⟨x, halias, hx⟩⟩
  | writeSource x v _ hx =>
    rw [hostWriteSrc_of_none hx] at hne
    exact absurd rfl hne
  | reset => exact absurd rfl hne

/-- Settles O51: the engine changes the current span byte, which holds the pixel at its even column, and the host what
it writes. -/
theorem onlySpanBytesChange : Obligations.OnlySpanBytesChange := by
  intro s t a h hs hne
  rw [← memReadSurf_takeTurn s] at hne
  have hwf := (takeTurn_keeps_inv h).surfaceWf
  obtain ⟨-, ev, rest, hp, hstep⟩ | ⟨-, hstep⟩ | ⟨-, -, hstep⟩ := step_cases s
  all_goals rw [hstep] at hs
  · obtain ⟨v, hev⟩ := (runEvent_next hs).changes_written hwf hne
    rw [takeTurn_platform] at hev
    refine .inr ⟨v, rest, ?_⟩
    obtain rfl | ⟨x, halias, rfl⟩ := hev
    · exact .inl hp
    · exact .inr ⟨x, halias, hp⟩
  · obtain ⟨hb, ha⟩ := engineStep_changes_current hwf hs hne
    have hrun := (takeTurn_keeps_inv h).running hb
    rw [currentIndex_eq hrun] at ha
    simp only [takeTurn_status, takeTurn_engine, takeTurn_platform] at hb ha hrun
    have hbyte := hrun.currentByte_le
    have hblast := hrun.blast_le
    have hfirst : bfirst s.engine ≤ currentByte s.engine := Nat.le_add_right _ _
    have hheight := hrun.height
    have hrow := hrun.row
    exact .inl ⟨hb, _, _, by omega, by omega, ha, by omega, by omega, by omega, by omega⟩
  · cases hs
    exact absurd (memReadSurf_takeTurn s a).symm hne

/-! ### The parameters and the source memory -/

/-- The engine writes neither the parameters nor the source memory (R34). -/
theorem engineStep_keeps_source {s t : State} (hs : engineStep s = .next t) :
    t.platform = s.platform ∧ t.source = s.source := by
  have outcome := engineStep_outcome s
  rw [hs] at outcome
  cases outcome with
  | idle => exact ⟨rfl, rfl⟩
  | read => exact ⟨rfl, rfl⟩
  | write => exact ⟨engineWrite_platform s, engineWrite_source s⟩

/-- An event of the host keeps the parameters, and the source memory unless it is a write of a source byte that no
window maps. -/
theorem EventNext.keeps_source {ev : HostEvent} {s t : State} (hn : EventNext ev s t) :
    t.platform = s.platform ∧
    (t.source = s.source ∨ ∃ a v, ev = .sourceWrite a v ∧ aliasIndex s.platform a = none) := by
  cases hn with
  | writeReg r v => exact ⟨by simp, .inl (by simp)⟩
  | readReg => exact ⟨rfl, .inl rfl⟩
  | poll => exact ⟨rfl, .inl rfl⟩
  | readMemory => exact ⟨rfl, .inl rfl⟩
  | writeSurface => exact ⟨rfl, .inl rfl⟩
  | writeSource a v hev hx => exact ⟨by simp, .inr ⟨a, v, hev, hx⟩⟩
  | reset => exact ⟨rfl, .inl rfl⟩

/-- Settles O52, by the three kinds of step: only the host's event can write the source memory. -/
theorem sourceIsReadOnlyToTheBlock : Obligations.SourceIsReadOnlyToTheBlock := by
  intro s t hs
  obtain ⟨-, ev, rest, hp, hstep⟩ | ⟨-, hstep⟩ | ⟨-, -, hstep⟩ := step_cases s
  all_goals rw [hstep] at hs
  · have hevent := (runEvent_next hs).keeps_source
    rw [takeTurn_platform, takeTurn_source] at hevent
    obtain ⟨hplatform, hsource | ⟨a, v, rfl, hx⟩⟩ := hevent
    · exact ⟨hplatform, .inl hsource⟩
    · exact ⟨hplatform, .inr ⟨a, v, rest, hp, hx⟩⟩
  · have hengine := engineStep_keeps_source hs
    rw [takeTurn_platform, takeTurn_source] at hengine
    obtain ⟨hplatform, hsource⟩ := hengine
    exact ⟨hplatform, .inl hsource⟩
  · cases hs
    exact ⟨rfl, .inl rfl⟩

end Sys2Proof.Machine
end

section
/-! SUPPORT. The encoding (R55 to R60): the stream words and the decoder's tests over natural numbers, and decode and
encode as inverse to each other. -/

namespace Sys2Proof.Machine

/-! ### Stream words as numbers -/

/-- The write bit stands below an even offset (R54, R60). -/
theorem ofNat_or_one {offset : Nat} (h : offset % 2 = 0) :
    BitVec.ofNat 16 offset ||| 1#16 = BitVec.ofNat 16 (offset + 1) := by
  obtain ⟨half, rfl⟩ := Nat.dvd_of_mod_eq_zero h
  have hor : 2 * half + 1 = 2 * half ||| 1 := Nat.two_pow_add_eq_or_of_lt (i := 1) (by decide) half
  rw [hor, BitVec.ofNat_or]

theorem offsetWellFormed_iff (offset : Nat) : offsetWellFormed offset = true ↔ offset % 2 = 0 ∧ offset ≤ 0x1E := by
  simp [offsetWellFormed]

theorem toNat_writeWord {offset : Nat} (h : offsetWellFormed offset = true) (imm : Word) :
    (writeWord offset imm).toNat = imm.toNat * 2 ^ 16 + (offset + 1) := by
  obtain ⟨heven, hle⟩ := (offsetWellFormed_iff offset).1 h
  have hlow : offset + 1 < 2 ^ 16 := by omega
  rw [writeWord, ofNat_or_one heven, BitVec.toNat_append, BitVec.toNat_ofNat, Nat.mod_eq_of_lt hlow, Nat.shiftLeft_eq,
    Nat.mul_comm, Nat.two_pow_add_eq_or_of_lt hlow]

theorem toNat_readWord {offset : Nat} (h : offset ≤ 0x1E) : (readWord offset).toNat = offset := by
  rw [readWord, BitVec.toNat_ofNat]
  omega

/-- A field of a word is zero when the digits it stands for are. -/
theorem extractLsb'_eq_zero_iff {n : Nat} (w : BitVec n) (start len : Nat) :
    w.extractLsb' start len = 0#len ↔ w.toNat / 2 ^ start % 2 ^ len = 0 := by
  rw [← BitVec.toNat_inj, BitVec.extractLsb'_toNat, Nat.shiftRight_eq_div_pow]
  simp

theorem getLsbD_iff {n : Nat} (w : BitVec n) (i : Nat) : w.getLsbD i = true ↔ w.toNat / 2 ^ i % 2 = 1 := by
  rw [← BitVec.testBit_toNat, Nat.testBit_eq_decide_div_mod_eq, decide_eq_true_eq]

theorem streamOffset_eq (w : BitVec 32) : streamOffset w = 2 * (w.toNat / 2 % 16) := by
  rw [streamOffset, BitVec.extractLsb'_toNat, Nat.shiftRight_eq_div_pow]

theorem streamData_eq (w : BitVec 32) : w.extractLsb' 16 16 = BitVec.ofNat 16 (w.toNat / 2 ^ 16) := by
  rw [BitVec.extractLsb', Nat.shiftRight_eq_div_pow]

/-- The stream decoder over natural numbers (R60). -/
theorem decodeStream_eq (w : BitVec 32) :
    decodeStream w =
      if w.toNat = 0x8002 then .ok .wait
      else if w.toNat / 2 ^ 5 % 2 ^ 10 ≠ 0 then .error (.reservedStreamBits w)
      else if w.toNat / 2 ^ 15 % 2 = 1 then .error (.pollFlag w)
      else if w.toNat % 2 = 1 then .ok (.wr (2 * (w.toNat / 2 % 16)) (BitVec.ofNat 16 (w.toNat / 2 ^ 16)))
      else if w.toNat / 2 ^ 16 % 2 ^ 16 ≠ 0 then .error (.dataOnRead w)
      else .ok (.rd (2 * (w.toNat / 2 % 16))) := by
  have hwait : w = waitWord ↔ w.toNat = 0x8002 := BitVec.toNat_inj.symm
  simp only [decodeStream, hwait, ne_eq, extractLsb'_eq_zero_iff, getLsbD_iff, streamOffset_eq, pow_zero, Nat.div_one]
  rw [streamData_eq]

/-! ### Decode and encode -/

theorem decodeStream_writeWord {offset : Nat} (h : offsetWellFormed offset = true) (imm : Word) :
    decodeStream (writeWord offset imm) = .ok (.wr offset imm) := by
  obtain ⟨heven, hle⟩ := (offsetWellFormed_iff offset).1 h
  have himm := imm.isLt
  have hdata : (imm.toNat * 2 ^ 16 + (offset + 1)) / 2 ^ 16 = imm.toNat := by omega
  have hoffset : 2 * ((imm.toNat * 2 ^ 16 + (offset + 1)) / 2 % 16) = offset := by omega
  rw [decodeStream_eq, toNat_writeWord h, if_neg (by omega), if_neg (by omega), if_neg (by omega), if_pos (by omega),
    hdata, hoffset, BitVec.ofNat_toNat, BitVec.setWidth_eq]

theorem decodeStream_readWord {offset : Nat} (h : offsetWellFormed offset = true) :
    decodeStream (readWord offset) = .ok (.rd offset) := by
  obtain ⟨heven, hle⟩ := (offsetWellFormed_iff offset).1 h
  have hoffset : 2 * (offset / 2 % 16) = offset := by omega
  rw [decodeStream_eq, toNat_readWord hle, if_neg (by omega), if_neg (by omega), if_neg (by omega), if_neg (by omega),
    if_neg (by omega), hoffset]

/-- Settles O2, instruction by instruction; a stream word's fields are read back from its number. -/
theorem decodeOfEncode : Obligations.DecodeOfEncode := by
  intro i h
  cases i with
  | drawBilevel => rfl
  | drawMultilevel invx => cases invx <;> rfl
  | wr offset imm => exact decodeStream_writeWord h imm
  | rd offset => exact decodeStream_readWord h
  | wait => rfl

/-- The decoder accepts a stream word only if its bits are those that R60 gives the instruction. -/
theorem encode_of_decodeStream {w : BitVec 32} {i : Instr} (h : decodeStream w = .ok i) :
    i.wellFormed = true ∧ encode i = .stream w := by
  have hw := w.isLt
  have hoffset : offsetWellFormed (2 * (w.toNat / 2 % 16)) = true := (offsetWellFormed_iff _).2 (by omega)
  rw [decodeStream_eq] at h
  split at h
  · next hwait =>
    cases h
    exact ⟨rfl, congrArg HostWord.stream (BitVec.eq_of_toNat_eq hwait.symm)⟩
  split at h
  · cases h
  split at h
  · cases h
  split at h
  · cases h
    refine ⟨hoffset, congrArg HostWord.stream (BitVec.eq_of_toNat_eq ?_)⟩
    rw [toNat_writeWord hoffset, BitVec.toNat_ofNat]
    omega
  split at h
  · cases h
  · cases h
    refine ⟨hoffset, congrArg HostWord.stream (BitVec.eq_of_toNat_eq ?_)⟩
    rw [toNat_readWord (by omega)]
    omega

/-- An instruction with a command word carries no offset (R54). -/
theorem wellFormed_of_encode_command {i : Instr} {v : Word} (h : encode i = .command v) : i.wellFormed = true := by
  cases i <;> cases h <;> rfl

/-- Settles O3, for the two forms of word; no command word carries an offset. -/
theorem encodeOfDecode : Obligations.EncodeOfDecode := by
  intro w i h
  cases w with
  | command v =>
    have hcmd := encode_of_decodeCommand h
    exact ⟨wellFormed_of_encode_command hcmd, hcmd⟩
  | stream w => exact encode_of_decodeStream h

/-- Settles O1: the seven words are the encodings of the seven instructions. -/
theorem specWordsDecode : Obligations.SpecWordsDecode :=
  ⟨decodeOfEncode .drawBilevel rfl, decodeOfEncode (.drawMultilevel false) rfl, decodeOfEncode (.drawMultilevel true) rfl,
    decodeOfEncode (.wr 0x00 0x0001#16) rfl, decodeOfEncode (.wr 0x0C 0x0005#16) rfl, decodeOfEncode (.rd 0x02) rfl,
    decodeOfEncode .wait rfl⟩

/-- A command word decodes to the instruction it encodes (R57). -/
theorem decode_command_iff (v : Word) (i : Instr) : decode (.command v) = .ok i ↔ encode i = .command v :=
  ⟨encode_of_decodeCommand, fun h => h ▸ decodeOfEncode i (wellFormed_of_encode_command h)⟩

/-- A command word that is not one of the three is reserved (R58). -/
theorem decode_reservedCommand {v : Word} (h : legalCommand v = false) :
    decode (.command v) = .error (.reservedCommand v) := by
  cases hd : decode (.command v) with
  | ok i =>
    have hlegal := legalCommand_of_encode ((decode_command_iff v i).1 hd)
    rw [h] at hlegal
    cases hlegal
  | error r =>
    rw [decode, decodeCommand] at hd
    split at hd
    · cases hd
    split at hd <;> cases hd
    rfl

theorem legalCommand_eq_false_iff (v : Word) :
    legalCommand v = false ↔ v ≠ 0x0001#16 ∧ v ≠ 0x0002#16 ∧ v ≠ 0x0006#16 := by
  rw [← Bool.not_eq_true, legalCommand_iff, not_or, not_or]

/-- No instruction is read from a command word exactly when it is reserved (R57, R58). -/
theorem decode_command_error_iff (v : Word) : (∃ r, decode (.command v) = .error r) ↔ legalCommand v = false := by
  refine ⟨fun ⟨r, hr⟩ => ?_, fun h => ⟨_, decode_reservedCommand h⟩⟩
  by_contra hlegal
  rw [Bool.not_eq_false, legalCommand_iff] at hlegal
  obtain rfl | rfl | rfl := hlegal <;> cases hr

/-- Settles O4: each of the three words is the encoding of its command, and any other word is reserved. -/
theorem exactlyThreeCommandWords : Obligations.ExactlyThreeCommandWords := by
  intro v
  have hword (u : Word) : HostWord.command u = HostWord.command v ↔ v = u := by
    rw [HostWord.command.injEq, eq_comm]
  exact ⟨(decode_command_iff v _).trans (hword _), (decode_command_iff v _).trans (hword _),
    (decode_command_iff v _).trans (hword _), (decode_command_error_iff v).trans (legalCommand_eq_false_iff v)⟩

end Sys2Proof.Machine
end

section
/-! SUPPORT. The host's words as steps of the machine: the instruction a word decodes to, the rejection of a reserved
command word, and the accesses of R61 that load a request. -/

namespace Sys2Proof.Machine

/-! ### The choice of a step -/

theorem takeTurn_of_idle {s : State} (h : s.status.busy = false) : takeTurn s = s := by
  simp [takeTurn, h]

/-- With both agents able to move, the head of `schedule` is used up (log 3). -/
theorem takeTurn_of_busy {s : State} (h : s.status.busy = true) (hp : s.pending ≠ []) :
    takeTurn s = { s with schedule := s.schedule.tail } := by
  simp [takeTurn, h, hp]

/-- An idle block leaves the move to the host. -/
theorem step_of_idle {s : State} {ev : HostEvent} {rest : List HostEvent} (h : s.status.busy = false)
    (hp : s.pending = ev :: rest) : step s = runEvent ev s := by
  have hturn : HostTurn s := ⟨by simp [hp], by simp [h]⟩
  rw [step_of_hostTurn hturn hp, takeTurn_of_idle h]

/-! ### Words -/

theorem runEvent_of_decode {w : HostWord} {i : Instr} (h : decode w = .ok i) (s : State) :
    runEvent (.word w) s = exec i s := by
  simp [runEvent, runWord, h]

/-- A write to the offset of `CMD` is a `CMD` write (R16). -/
theorem exec_wr_cmd (v : Word) (s : State) : exec (.wr 0x00 v) s = .next (advance (onCmdWrite v s)) := rfl

/-- A reserved command word is a `CMD` write too (R16, R58). -/
theorem runEvent_reservedCommand {v : Word} (h : legalCommand v = false) (s : State) :
    runEvent (.word (.command v)) s = .next (advance (onCmdWrite v s)) := by
  simp [runEvent, runWord, decode_reservedCommand h, issueReserved]

/-- Settles O5: the host's event is the word, and only a contended step uses up a choice. -/
theorem stepRunsDecodedInstruction : Obligations.StepRunsDecodedInstruction := by
  intro s w i rest hp hd
  refine ⟨fun hb => ?_, fun hb hhead => ?_⟩
  · rw [step_of_idle hb hp, runEvent_of_decode hd]
  · have hne : s.pending ≠ [] := by simp [hp]
    rw [step_of_hostTurn ⟨hne, fun _ => hhead⟩ hp, runEvent_of_decode hd, takeTurn_of_busy hb hne]

/-- Settles O11: the opcode is checked first (R105), and both ways are the `CMD` write of the word. -/
theorem reservedCommandRejected : Obligations.ReservedCommandRejected := by
  intro s v h1 h2 h6 hb
  have hreserved : legalCommand v = false := (legalCommand_eq_false_iff v).2 ⟨h1, h2, h6⟩
  have hcheck : check v s = .badOp := by rw [check_eq, if_pos hreserved]
  have hwrite := onCmdWrite_rejected hb hcheck nofun
  refine ⟨?_, fun rest hp => ?_⟩
  · rw [exec_wr_cmd, hwrite]
    rfl
  · rw [step_of_idle hb hp, runEvent_reservedCommand hreserved, hwrite]
    rfl

/-- Settles O20, by the value of `BUSY` that the read finds. -/
theorem waitReadsStatus : Obligations.WaitReadsStatus := by
  intro s
  refine ⟨fun hb => ?_, fun hb => ?_⟩
  · simp only [exec, execWait, hb, Bool.false_eq_true, if_false]
    rfl
  · simp only [exec, execWait, hb, if_true]

/-! ### Loading a request -/

/-- The offset of a register in the map of R14, the first one for `reserved`. -/
def regOffset : Reg → Nat
  | .cmd => 0x00
  | .status => 0x02
  | .srcLo => 0x04
  | .srcHi => 0x06
  | .wbytes => 0x08
  | .hbytes => 0x0A
  | .xorg => 0x0C
  | .yorg => 0x0E
  | .xscale => 0x10
  | .yscale => 0x12
  | .fg => 0x14
  | .bg => 0x16
  | .reserved => 0x18

@[simp] theorem regAt_regOffset (r : Reg) : regAt (regOffset r) = some r := by cases r <;> rfl

theorem regOffset_wellFormed (r : Reg) : offsetWellFormed (regOffset r) = true := by cases r <;> rfl

/-- `wr REG, imm16` by the register's name (R60). -/
def regWrite (w : Reg × Word) : Instr := .wr (regOffset w.1) w.2

/-- The registers after a list of writes, oldest first. -/
def storeRegs (g : Regs) (ws : List (Reg × Word)) : Regs := ws.foldl (fun g w => storeReg w.1 w.2 g) g

/-- An idle block takes a write to any register but `CMD` in one step (R15). -/
theorem step_regWrite {s : State} {w : Reg × Word} {rest : List HostEvent} (hb : s.status.busy = false)
    (hw : w.1 ≠ .cmd) (hp : s.pending = hostProgram [regWrite w] ++ rest) :
    step s = .next { s with regs := storeReg w.1 w.2 s.regs, pending := rest } := by
  have hd : decode (encode (regWrite w)) = .ok (regWrite w) := decodeOfEncode _ (regOffset_wellFormed w.1)
  have hrest : rest = s.pending.tail := by rw [hp]; rfl
  rw [step_of_idle hb hp, runEvent_of_decode hd, hrest]
  exact exec_wr_of_ne_cmd (regAt_regOffset w.1) hw w.2 s

/-- An idle block takes a list of such writes one step at a time, and stays idle (R95). -/
theorem core_run_regWrites {ws : List (Reg × Word)} {s : State} {rest : List HostEvent} (hb : s.status.busy = false)
    (hws : ∀ w ∈ ws, w.1 ≠ .cmd) (hp : s.pending = hostProgram (ws.map regWrite) ++ rest) :
    core.run ws.length s = .next { s with regs := storeRegs s.regs ws, pending := rest } := by
  induction ws generalizing s with
  | nil =>
    have hrest : rest = s.pending := hp.symm
    subst hrest
    rfl
  | cons w ws ih =>
    rw [List.forall_mem_cons] at hws
    obtain ⟨hw, hws⟩ := hws
    rw [List.length_cons, core_run_succ _ _ _ (step_regWrite hb hw hp)]
    exact ih hb hws rfl

/-- The writes of R61 that `blit.bi` and `blit.ml` share: the source address and the geometry. -/
def geometryWrites (addr : BitVec 32) (wb hb x y xs ys : Word) : List (Reg × Word) :=
  [(.srcLo, addr.extractLsb' 0 16), (.srcHi, addr.extractLsb' 16 16), (.wbytes, wb), (.hbytes, hb), (.xorg, x),
    (.yorg, y), (.xscale, xs), (.yscale, ys)]

theorem pseudoBlitBi_eq (addr : BitVec 32) (wb hb fg bg x y xs ys : Word) :
    pseudoBlitBi addr wb hb fg bg x y xs ys =
      (geometryWrites addr wb hb x y xs ys ++ [(Reg.fg, fg), (Reg.bg, bg)]).map regWrite ++ [.wr 0x00 0x0001#16, .wait] := rfl

/-- `invert_x` stands in bit 2 of the command word (R55, R61). -/
theorem pseudoBlitMl_eq (addr : BitVec 32) (wb hb bg x y xs ys : Word) (invx : Bool) :
    pseudoBlitMl addr wb hb bg x y xs ys invx =
      (geometryWrites addr wb hb x y xs ys ++ [(Reg.bg, bg)]).map regWrite ++
        [.wr 0x00 (if invx then 0x0006#16 else 0x0002#16), .wait] := by
  cases invx <;> rfl

theorem hostProgram_append (is js : List Instr) : hostProgram (is ++ js) = hostProgram is ++ hostProgram js :=
  List.map_append

/-- Settles O22: the ten writes before the `CMD` write are to the ten request registers. -/
theorem blitBiLoadsRequest : Obligations.BlitBiLoadsRequest := by
  intro s addr wb hb fg bg x y xs ys hidle hp
  rw [pseudoBlitBi_eq, hostProgram_append] at hp
  exact core_run_regWrites hidle (by simp [geometryWrites]) hp

/-- Settles O23: the nine writes before the `CMD` write are to the request registers other than `FG`. -/
theorem blitMlLoadsRequest : Obligations.BlitMlLoadsRequest := by
  intro s addr wb hb bg x y xs ys invx hidle hp
  rw [pseudoBlitMl_eq, hostProgram_append] at hp
  exact core_run_regWrites hidle (by simp [geometryWrites]) hp

end Sys2Proof.Machine
end

section
/-! SUPPORT. The address translator: the bank offset of a pixel and its range, the index as a bank above the offset, the
destination byte of an index, and the bank counters along the rows. -/

namespace Sys2Proof.Machine

/-! ### The bank offset -/

/-- A bank holds `rowsPerBank` rows of `rowBytes` bytes (R63, R65). -/
theorem bankOffset_le {px py : Nat} (hx : px ≤ 319) (hy : py ≤ 199) : py / 4 * 160 + px / 2 ≤ 7999 := by omega

/-- The index is the bank's base plus the bank offset (R63). -/
theorem xlate_idx_bankOffset (pageSize px py : Nat) :
    (xlate pageSize px py).idx = py % 4 * pageSize + (py / 4 * 160 + px / 2) := by
  rw [xlate_idx, Nat.add_assoc]

/-- The offset carries nothing into the bank, which is at most 3 (R65). -/
theorem xlate_idx_le {pageSize px py : Nat} (hx : px ≤ 319) (hy : py ≤ 199) :
    (xlate pageSize px py).idx ≤ 3 * pageSize + 7999 := by
  have hbank : py % 4 * pageSize ≤ 3 * pageSize := Nat.mul_le_mul_right _ (by omega)
  rw [xlate_idx_bankOffset]
  exact Nat.add_le_add hbank (bankOffset_le hx hy)

/-- The row and the byte of a pixel are determined by its index (R65). -/
theorem xlate_idx_injective {pageSize px py px' py' : Nat} (hp : 8000 ≤ pageSize) (hx : px ≤ 319) (hy : py ≤ 199)
    (hx' : px' ≤ 319) (hy' : py' ≤ 199) (h : (xlate pageSize px py).idx = (xlate pageSize px' py').idx) :
    py = py' ∧ px / 2 = px' / 2 := by
  have hoff := bankOffset_le hx hy
  have hoff' := bankOffset_le hx' hy'
  rw [xlate_idx_bankOffset, xlate_idx_bankOffset] at h
  obtain ⟨hbank, hoffset⟩ := bank_offset_unique (by omega) (by omega) h
  omega

/-! ### The destination byte of an index -/

/-- The row whose byte an index is, if its bank offset is below 8000: four rows per row of the bank. -/
def rowOfIndex (pageSize idx : Nat) : Nat := idx % pageSize / 160 * 4 + idx / pageSize

/-- The byte of that row. -/
def byteOfIndex (pageSize idx : Nat) : Nat := idx % pageSize % 160

theorem rowOfIndex_le {pageSize idx : Nat} (hi : idx < 4 * pageSize) (ho : idx % pageSize < 8000) :
    rowOfIndex pageSize idx ≤ 199 := by
  have hbank : idx / pageSize < 4 := Nat.div_lt_of_lt_mul (by omega)
  unfold rowOfIndex
  omega

theorem byteOfIndex_le (pageSize idx : Nat) : byteOfIndex pageSize idx ≤ 159 := by
  unfold byteOfIndex
  omega

/-- `XLATE` maps the row and the byte of an index back to it (R65). -/
theorem xlate_idx_rowOfIndex {pageSize idx px : Nat} (hi : idx < 4 * pageSize)
    (hx : px / 2 = byteOfIndex pageSize idx) : (xlate pageSize px (rowOfIndex pageSize idx)).idx = idx := by
  have hdiv : idx / pageSize < 4 := Nat.div_lt_of_lt_mul (by omega)
  have hbank : rowOfIndex pageSize idx % 4 = idx / pageSize := by
    rw [rowOfIndex, Nat.mul_add_mod', Nat.mod_eq_of_lt hdiv]
  have hrow : rowOfIndex pageSize idx / 4 = idx % pageSize / 160 := by
    rw [rowOfIndex, Nat.add_comm, Nat.add_mul_div_right _ _ (by decide), Nat.div_eq_of_lt hdiv, Nat.zero_add]
  rw [xlate_idx_bankOffset, hx, hbank, hrow, byteOfIndex, Nat.div_add_mod', Nat.div_add_mod']

/-- Settles O26: the index splits into a bank and a bank offset in one way, and each such pair is a row and a byte. -/
theorem translatorRangeAndOneToOne : Obligations.TranslatorRangeAndOneToOne := by
  intro p hlegal
  have hp : 8000 ≤ p.pageSize := hlegal.1
  refine ⟨fun px py hx hy => ?_, fun px py px' py' hx hy hx' hy' => xlate_idx_injective hp hx hy hx' hy',
    fun idx hi ho => ?_, xlate_idx_bankOffset p.pageSize 319 199⟩
  · have hle := xlate_idx_le (pageSize := p.pageSize) hx hy
    exact ⟨hle, by omega, bankOffset_le hx hy⟩
  · exact ⟨rowOfIndex p.pageSize idx, byteOfIndex p.pageSize idx, rowOfIndex_le hi ho, byteOfIndex_le _ _,
      fun px hx => ⟨xlate_idx_rowOfIndex hi hx, rfl⟩⟩

/-! ### Concatenation -/

/-- A sum without a carry between its two fields is their concatenation (R66). -/
theorem ofNat_mul_add_eq_append {m n a b : Nat} (ha : a < 2 ^ m) (hb : b < 2 ^ n) :
    BitVec.ofNat (m + n) (a * 2 ^ n + b) = BitVec.ofNat m a ++ BitVec.ofNat n b := by
  apply BitVec.eq_of_toNat_eq
  have hlt : a * 2 ^ n + b < 2 ^ (m + n) := by
    calc a * 2 ^ n + b < (a + 1) * 2 ^ n := by rw [Nat.succ_mul]; omega
      _ ≤ 2 ^ m * 2 ^ n := Nat.mul_le_mul_right _ ha
      _ = 2 ^ (m + n) := (Nat.pow_add 2 m n).symm
  rw [BitVec.toNat_append, BitVec.toNat_ofNat, BitVec.toNat_ofNat, BitVec.toNat_ofNat, Nat.mod_eq_of_lt hlt,
    Nat.mod_eq_of_lt ha, Nat.mod_eq_of_lt hb, ← Nat.shiftLeft_add_eq_or_of_lt hb, Nat.shiftLeft_eq]

/-- Settles O27: the offset is below 8192, so the sum has no carry into the bank. -/
theorem translatorConcatenation : Obligations.TranslatorConcatenation := by
  refine ⟨xlate_idx_bankOffset, fun px py hx hy => ?_⟩
  have hoff := bankOffset_le hx hy
  have hbank : py % 4 < 4 := Nat.mod_lt _ (by decide)
  rw [xlate_idx_bankOffset]
  exact ⟨hoff, by omega, by omega, ofNat_mul_add_eq_append (m := 2) (n := 13) hbank (by omega)⟩

/-! ### The bank counters -/

/-- One wrap-then-advance step takes the counters of a row to those of the next row (R67). -/
theorem bankStep_nextRow {e : Engine} {y : Nat} (hbank : e.bank.val = y % 4) (hoff : e.rowOff = y / 4 * 160) :
    (bankStep e).bank.val = (y + 1) % 4 ∧ (bankStep e).rowOff = (y + 1) / 4 * 160 := by
  rw [bankStep_bank, bankStep_rowOff, hbank, hoff]
  refine ⟨by omega, ?_⟩
  split <;> omega

/-- Settles O28, by induction on the number of steps: each goes from a row to the next. -/
theorem incrementalBankCounters : Obligations.IncrementalBankCounters := by
  intro e y n hbank hoff
  induction n with
  | zero => exact ⟨hbank, hoff⟩
  | succ n ih =>
    obtain ⟨hbankN, hoffN⟩ := ih
    rw [Function.iterate_succ_apply']
    exact bankStep_nextRow hbankN hoffN

end Sys2Proof.Machine
end

section
/-! SUPPORT. The geometry of a row: the columns of its first and last span byte, the block of output pixels of one source
pixel, and the nibbles of a merged byte (R73, R75 to R77). -/

namespace Sys2Proof.Machine

/-! ### The span of a row -/

/-- The first span byte starts at `L.x`, less one column when its high nibble is not drawn (R75). -/
theorem bfirst_columns (e : Engine) : 2 * bfirst e + leadNibbles e = e.latched.x.toNat := Nat.div_add_mod _ 2

/-- The last span byte ends at `x1`, plus one column when its low nibble is not drawn (R75). -/
theorem blast_columns (e : Engine) : 2 * blast e + 1 = lastColumn e + trailNibbles e := by
  unfold blast trailNibbles
  omega

theorem leadNibbles_le (e : Engine) : leadNibbles e ≤ 1 := Nat.le_of_lt_succ (Nat.mod_lt _ (by decide))

theorem trailNibbles_le (e : Engine) : trailNibbles e ≤ 1 := Nat.sub_le _ _

/-- Settles O29: the columns of the first and the last span byte leave `2 * NP` columns between the lone nibbles. -/
theorem spanSplit : Obligations.SpanSplit := by
  intro e hw hx
  have hfirst := bfirst_columns e
  have hlast := blast_columns e
  have hlead := leadNibbles_le e
  have htrail := trailNibbles_le e
  have hx1 : lastColumn e = e.latched.x.toNat + e.w - 1 := rfl
  have hnb : spanBytes e = blast e - bfirst e + 1 := rfl
  have hnp : spanPairs e = spanBytes e - leadNibbles e - trailNibbles e := rfl
  refine ⟨rfl, rfl, rfl, rfl, rfl, ?_, ?_, ?_, ?_, Iff.rfl, ?_, ?_⟩ <;> omega

/-! ### Replication -/

/-- The quotient of a block index and a place in the block is the block index. -/
theorem div_of_block {n a : Nat} (h : a < n) (q : Nat) : (q * n + a) / n = q := by
  rw [Nat.mul_comm, Nat.mul_add_div (Nat.zero_lt_of_lt h), Nat.div_eq_of_lt h, Nat.add_zero]

/-- `Pix` depends on the source row and the scan column alone, for both rasterizers and with mirror (R72, R89). -/
theorem pix_eq_of_source_eq {s : State} {i j i' j' : Nat}
    (hrow : sourceRow s.engine.latched i = sourceRow s.engine.latched i')
    (hcol : scanColumn s.engine.latched j = scanColumn s.engine.latched j') : pix s i j = pix s i' j' := by
  have hmirror : multilevelColumn s.engine.latched j = multilevelColumn s.engine.latched j' := by
    simp only [multilevelColumn, hcol]
  simp only [pix, biPix, mlPix, hrow, hcol, hmirror]

/-- Settles O32: all pixels of the block come from one source row and one scan column. -/
theorem scalingLaw : Obligations.ScalingLaw := by
  intro s sr sc a b ha hb
  have hrow : ∀ c, c < s.engine.latched.ys.toNat →
      sourceRow s.engine.latched (sr * s.engine.latched.ys.toNat + c) = sr := fun _ hc => div_of_block hc sr
  have hcol : ∀ c, c < s.engine.latched.xs.toNat →
      scanColumn s.engine.latched (sc * s.engine.latched.xs.toNat + c) = sc := fun _ hc => div_of_block hc sc
  refine ⟨hrow a ha, hcol b hb, pix_eq_of_source_eq ?_ ?_⟩
  · exact (hrow a ha).trans (hrow 0 (Nat.zero_lt_of_lt ha)).symm
  · exact (hcol b hb).trans (hcol 0 (Nat.zero_lt_of_lt hb)).symm

/-! ### The merged byte -/

@[simp] theorem hiNibble_append (hi lo : Nibble) : hiNibble (hi ++ lo) = hi := by
  ext i h
  rw [hiNibble, BitVec.getElem_extractLsb', BitVec.getLsbD_append, if_neg (by omega), Nat.add_sub_cancel_left,
    BitVec.getLsbD_eq_getElem]

@[simp] theorem loNibble_append (hi lo : Nibble) : loNibble (hi ++ lo) = lo := by
  ext i h
  rw [loNibble, BitVec.getElem_extractLsb', BitVec.getLsbD_append, if_pos (by omega), Nat.zero_add,
    BitVec.getLsbD_eq_getElem]

/-- Each nibble of a merged byte is its pixel, or the old nibble for `KEEP` (R77). -/
theorem nibbleAt_merge (s : State) (i b : Nat) (old : Byte) {pos : Nat} (hpos : pos < 2) :
    nibbleAt (merge s i b old) pos = (pixAt s i (2 * b + pos)).getD (nibbleAt old pos) := by
  obtain rfl | rfl : pos = 0 ∨ pos = 1 := by omega
  · simp [nibbleAt, merge]
  · simp [nibbleAt, merge]

theorem pixAt_of_drawn {s : State} {i px : Nat} (hleft : s.engine.latched.x.toNat ≤ px)
    (hright : px < s.engine.latched.x.toNat + s.engine.w) : pixAt s i px = pix s i (px - s.engine.latched.x.toNat) :=
  if_pos ⟨hleft, hright⟩

theorem pixAt_of_undrawn {s : State} {i px : Nat}
    (h : px < s.engine.latched.x.toNat ∨ s.engine.latched.x.toNat + s.engine.w ≤ px) : pixAt s i px = none :=
  if_neg (by omega)

/-- Settles O34, by whether the nibble's column is drawn. -/
theorem mergeKeepsUndrawnNibbles : Obligations.MergeKeepsUndrawnNibbles := by
  intro s i b pos old hpos
  refine ⟨fun hleft hright => ?_, fun hout => ?_⟩
  · rw [nibbleAt_merge s i b old hpos, pixAt_of_drawn hleft hright]
  · rw [nibbleAt_merge s i b old hpos, pixAt_of_undrawn hout]
    rfl

end Sys2Proof.Machine
end

section
/-! SUPPORT. The acceptance of a draw with a legal request: its command word passes the checks, the clamped sizes are
minima, and an empty draw is done at once (R68 to R70, R96, R97). -/

namespace Sys2Proof.Machine

variable {s : State} {i : Instr}

/-- A request that is legal for the bi-level draw is legal for the other. -/
theorem LegalRequest.imp {bilevel bilevel' : Prop} (h : LegalRequest bilevel s) (himp : bilevel' → bilevel) :
    LegalRequest bilevel' s :=
  { h with fg := fun hb => h.fg (himp hb) }

/-- The command word of a draw with a legal request passes the checks, and its opcode is the draw's (R57, R96). -/
theorem check_of_legalDraw
    (h : i = .drawBilevel ∧ LegalRequest True s ∨ (∃ invx, i = .drawMultilevel invx) ∧ LegalRequest False s) :
    ∃ v, encode i = .command v ∧ check v s = .none ∧
      v.extractLsb' 0 2 = if i = .drawBilevel then opBilevel else opMultilevel := by
  obtain ⟨rfl, hreq⟩ | ⟨⟨invx, rfl⟩, hreq⟩ := h
  · exact ⟨_, rfl, (check_eq_none_iff _ _).2 ⟨rfl, hreq.imp fun _ => trivial⟩, rfl⟩
  · have hop : (multilevelCommand invx).extractLsb' 0 2 = opMultilevel := by cases invx <;> rfl
    have hlegal : legalCommand (multilevelCommand invx) = true := by cases invx <;> rfl
    refine ⟨_, rfl, (check_eq_none_iff _ _).2 ⟨hlegal, hreq.imp fun hbi => ?_⟩, hop⟩
    rw [hop] at hbi
    exact absurd hbi (by decide)

/-- An idle block accepts a command whose checks pass (R95, R97). -/
theorem exec_accepted {v : Word} (hb : s.status.busy = false) (hcode : encode i = .command v)
    (hcheck : check v s = .none) :
    exec i s = .next
      { s with
        regs := { s.regs with cmd := v }
        status := setAccepted ((acceptedEngine v s).w == 0 || (acceptedEngine v s).h == 0)
          { busy := false, done := false, err := .none, ovr := false }
        engine := acceptedEngine v s
        pending := s.pending.tail } := by
  rw [exec_of_encode_command hcode, onCmdWrite_accepted hb hcheck]
  rfl

theorem acceptedEngine_w (v : Word) (s : State) :
    (acceptedEngine v s).w =
      min (s.regs.wbytes.toNat * pixelsPerByte (v.extractLsb' 0 2) * s.regs.xscale.toNat)
        (320 - s.regs.xorg.toNat) := rfl

theorem acceptedEngine_h (v : Word) (s : State) :
    (acceptedEngine v s).h = min (s.regs.hbytes.toNat * s.regs.yscale.toNat) (200 - s.regs.yorg.toNat) := rfl

/-- A bitmap without columns or without rows makes an empty draw (R70). -/
theorem acceptedEngine_empty (v : Word) (h : s.regs.wbytes = 0 ∨ s.regs.hbytes = 0) :
    (acceptedEngine v s).w = 0 ∨ (acceptedEngine v s).h = 0 := by
  refine h.imp (fun hwb => ?_) fun hhb => ?_
  · simp [acceptedEngine_w, hwb]
  · simp [acceptedEngine_h, hhb]

/-- Settles O9: acceptance of an empty draw sets `DONE` and not `BUSY`. -/
theorem emptyDrawCompletesAtAcceptance : Obligations.EmptyDrawCompletesAtAcceptance := by
  intro s i hb hdraw hzero
  obtain ⟨v, hcode, hcheck, -⟩ := check_of_legalDraw hdraw
  have hempty := acceptedEngine_empty v hzero
  have hflag : ((acceptedEngine v s).w == 0 || (acceptedEngine v s).h == 0) = true := by simpa using hempty
  refine ⟨_, exec_accepted hb hcode hcheck, ?_, rfl, rfl, hempty⟩
  dsimp only
  rw [hflag]
  rfl

/-- Settles O30: the sizes are the minima of R68 and R69, and a minimum is the largest number below both. -/
theorem clampedSizesAreLargest : Obligations.ClampedSizesAreLargest := by
  intro s i hb hdraw
  obtain ⟨v, hcode, hcheck, hop⟩ := check_of_legalDraw hdraw
  obtain ⟨-, hreq⟩ := (check_eq_none_iff v s).1 hcheck
  have hx := hreq.xorg
  have hy := hreq.yorg
  have hpps : pixelsPerByte (v.extractLsb' 0 2) = if i = .drawBilevel then 8 else 2 := by
    rw [hop]
    split <;> rfl
  refine ⟨_, exec_accepted hb hcode hcheck, ?_⟩
  dsimp only
  rw [acceptedEngine_w, acceptedEngine_h, hpps]
  refine ⟨rfl, rfl, rfl, rfl, fun n => ?_, fun n => ?_⟩
  · rw [le_min_iff]
    omega
  · rw [le_min_iff]
    omega

end Sys2Proof.Machine
end

section
/-! SUPPORT. One step of a running engine: the premise of R123 as the engine's own test, the counters and `STATUS` after
each half, and what neither half touches (R78 to R81). -/

namespace Sys2Proof.Machine

/-! ### The premise of R123 -/

/-- A byte of the bitmap is some row byte of some source row: its distance from `L.src` is `r * WB + j` (R40, R41). -/
theorem sourceAddr_of_isSourceByte {p : Config.Platform} {l : Latched} (hsrc : l.src.toNat < sourceSize p) {a : Nat}
    (h : isSourceByte p l a = true) : ∃ r j, r < l.hb.toNat ∧ j < l.wb.toNat ∧ a = sourceAddr p l r j := by
  simp only [isSourceByte, Bool.and_eq_true, decide_eq_true_eq, Nat.mod_eq_of_lt hsrc] at h
  obtain ⟨ha, hd⟩ := h
  have hwb : 0 < l.wb.toNat := Nat.pos_of_mul_pos_right (Nat.zero_lt_of_lt hd)
  refine ⟨(a + (sourceSize p - l.src.toNat)) % sourceSize p / l.wb.toNat,
    (a + (sourceSize p - l.src.toNat)) % sourceSize p % l.wb.toNat, Nat.div_lt_of_lt_mul hd, Nat.mod_lt _ hwb, ?_⟩
  rw [sourceAddr, Nat.add_assoc, Nat.div_add_mod', Nat.add_mod_mod,
    show l.src.toNat + (a + (sourceSize p - l.src.toNat)) = a + sourceSize p by omega, Nat.add_mod_right,
    Nat.mod_eq_of_lt ha]

/-- The engine's test passes under the premise of R123. -/
theorem NoOverlap.overlaps_eq_false {p : Config.Platform} {e : Engine} (h : NoOverlap p e) (hr : Running p e) :
    overlaps p e = false := by
  rw [← Bool.not_eq_true, overlaps_iff]
  rintro ⟨i, b, a, hi, hfirst, hlast, ha, halias⟩
  obtain ⟨r, j, hrow, hcol, rfl⟩ := sourceAddr_of_isSourceByte hr.src ha
  have hnb : spanBytes e = blast e - bfirst e + 1 := rfl
  have hle := hr.blast_le
  exact h r j i b hrow hcol hi hfirst (by omega) halias

variable {s t u : State}

theorem engineStep_rd (h : s.Inv) (hb : s.status.busy = true) (hno : NoOverlap s.platform s.engine)
    (hphase : s.engine.phase = .rd) : engineStep s = .next (engineRead s) := by
  rw [engineStep_of_inv h hb (hno.overlaps_eq_false (h.running hb)), if_pos hphase]

theorem engineStep_wr (h : s.Inv) (hb : s.status.busy = true) (hno : NoOverlap s.platform s.engine)
    (hphase : s.engine.phase = .wr) : engineStep s = .next (engineWrite s) := by
  rw [engineStep_of_inv h hb (hno.overlaps_eq_false (h.running hb)), if_neg (by simp [hphase])]

/-- Settles O6: the mover is the engine, and only a contended step uses up a choice. -/
theorem stepRunsEngine : Obligations.StepRunsEngine := by
  intro s hb
  have hstep : EngineTurn s → step s = engineStep (takeTurn s) := fun hturn => by
    simp [step, runTurn, mover_engine hturn]
  refine ⟨fun hp => ?_, fun hp hhead => ?_⟩
  · rw [hstep ⟨hb, fun hhost => hhost.1 hp⟩]
    simp [takeTurn, hp]
  · rw [hstep ⟨hb, fun hhost => hhead (hhost.2 hb)⟩, takeTurn_of_busy hb hp]

/-- Settles O35: the engine's index is the translator's. -/
theorem engineReadStep : Obligations.EngineReadStep := by
  intro s h hb hno hphase
  rw [engineStep_rd h hb hno hphase, engineRead, currentIndex_eq (h.running hb)]
  rfl

/-! ### The sequencer after the `WR` half -/

/-- The counters after the `WR` half: the next span byte, or the first one of the next row (R78, R79). -/
def nextCounters (e : Engine) : Engine :=
  if e.k + 1 < spanBytes e then { e with phase := .rd, k := e.k + 1 }
  else bankStep { e with phase := .rd, k := 0, row := e.row + 1 }

@[simp] theorem engineWrite_engine (s : State) : (engineWrite s).engine = nextCounters s.engine := by
  unfold nextCounters
  split
  · next hk => rw [engineWrite_inRow hk]
  · next hk => rw [engineWrite_rowEnd hk]

/-- `STATUS` after the `WR` half: completion comes with the last span byte of the last row (R80). -/
theorem engineWrite_status (s : State) :
    (engineWrite s).status =
      if s.engine.k + 1 < spanBytes s.engine ∨ s.engine.row + 1 ≠ s.engine.h then s.status
      else setComplete s.status := by
  by_cases hk : s.engine.k + 1 < spanBytes s.engine
  · rw [engineWrite_inRow hk, if_pos (.inl hk)]
    rfl
  · rw [engineWrite_rowEnd hk]
    by_cases hlast : s.engine.row + 1 = s.engine.h
    · simp [hk, hlast]
    · simp [hlast]

theorem nextCounters_inRow {e : Engine} (h : e.k + 1 < spanBytes e) :
    nextCounters e = { e with phase := .rd, k := e.k + 1 } := if_pos h

theorem nextCounters_rowEnd {e : Engine} (h : ¬ e.k + 1 < spanBytes e) :
    nextCounters e = bankStep { e with phase := .rd, k := 0, row := e.row + 1 } := if_neg h

@[simp] theorem nextCounters_latched (e : Engine) : (nextCounters e).latched = e.latched := by
  unfold nextCounters; split <;> simp
@[simp] theorem nextCounters_w (e : Engine) : (nextCounters e).w = e.w := by unfold nextCounters; split <;> simp
@[simp] theorem nextCounters_h (e : Engine) : (nextCounters e).h = e.h := by unfold nextCounters; split <;> simp
@[simp] theorem nextCounters_hold (e : Engine) : (nextCounters e).hold = e.hold := by
  unfold nextCounters; split <;> simp
@[simp] theorem nextCounters_phase (e : Engine) : (nextCounters e).phase = .rd := by
  unfold nextCounters; split <;> simp

/-- The counters do not depend on `HOLD`, which they keep. -/
theorem nextCounters_withHold (e : Engine) (hold : Byte) :
    nextCounters { e with hold := hold } = { nextCounters e with hold := hold } := by
  by_cases hk : e.k + 1 < spanBytes e
  · rw [nextCounters_inRow hk, nextCounters_inRow (e := { e with hold := hold }) hk]
  · rw [nextCounters_rowEnd hk, nextCounters_rowEnd (e := { e with hold := hold }) hk]
    unfold bankStep
    dsimp only
    split <;> rfl

/-! ### What the engine leaves unchanged -/

/-- What no engine step changes: all that is neither a counter, `HOLD`, `STATUS` nor the surface. -/
structure EngineKeeps (s t : State) : Prop where
  platform : t.platform = s.platform
  regs : t.regs = s.regs
  source : t.source = s.source
  pending : t.pending = s.pending
  schedule : t.schedule = s.schedule
  reads : t.reads = s.reads
  memReads : t.memReads = s.memReads
  latched : t.engine.latched = s.engine.latched
  w : t.engine.w = s.engine.w
  h : t.engine.h = s.engine.h

theorem EngineKeeps.refl (s : State) : EngineKeeps s s := ⟨rfl, rfl, rfl, rfl, rfl, rfl, rfl, rfl, rfl, rfl⟩

theorem EngineKeeps.trans (h : EngineKeeps s t) (h' : EngineKeeps t u) : EngineKeeps s u :=
  ⟨h'.platform.trans h.platform, h'.regs.trans h.regs, h'.source.trans h.source, h'.pending.trans h.pending,
    h'.schedule.trans h.schedule, h'.reads.trans h.reads, h'.memReads.trans h.memReads,
    h'.latched.trans h.latched, h'.w.trans h.w, h'.h.trans h.h⟩

theorem engineRead_keeps (s : State) : EngineKeeps s (engineRead s) := ⟨rfl, rfl, rfl, rfl, rfl, rfl, rfl, rfl, rfl, rfl⟩

theorem engineWrite_keeps (s : State) : EngineKeeps s (engineWrite s) := by constructor <;> simp

/-- A source byte reads alike when the source memory and the surface byte that a window maps there do. -/
theorem memReadSrc_congr {a : Nat} (hp : t.platform = s.platform) (hm : t.source = s.source)
    (hs : ∀ idx, aliasIndex s.platform a = some idx → memReadSurf t idx = memReadSurf s idx) :
    memReadSrc t a = memReadSrc s a := by
  cases halias : aliasIndex s.platform a with
  | none => rw [memReadSrc_of_none halias, memReadSrc_of_none (hp ▸ halias), hp, hm]
  | some idx => rw [memReadSrc_of_alias halias, memReadSrc_of_alias (hp ▸ halias), hs idx halias]

/-- The `WR` half changes the source bytes that a window maps to the current span byte, and no other (R123). -/
theorem memReadSrc_engineWrite (h : Memory.wf (surfaceUnlisted s.platform) s.surface = true) (a : Nat) :
    memReadSrc (engineWrite s) a =
      if aliasIndex s.platform a = some (currentIndex s) then
        merge s s.engine.row (currentByte s.engine) s.engine.hold
      else memReadSrc s a := by
  split
  · next halias =>
    rw [memReadSrc_of_alias (s := engineWrite s) (by simpa using halias), memReadSurf_engineWrite h, if_pos rfl]
  · next halias =>
    refine memReadSrc_congr (engineWrite_platform s) (engineWrite_source s) fun idx hidx => ?_
    rw [memReadSurf_engineWrite h, if_neg]
    rintro rfl
    exact halias hidx

/-- Settles O36: one byte written, and the sequencer inside a row, at its end, or at the end of the command. -/
theorem engineWriteStep : Obligations.EngineWriteStep := by
  intro s h hb hno hphase e b py
  have hr := h.running hb
  have hidx : currentIndex s = (xlate s.platform.pageSize (2 * b) py).idx := currentIndex_eq hr
  have hsurf := memReadSurf_engineWrite (s := s) h.surfaceWf
  have hsrc := memReadSrc_engineWrite (s := s) h.surfaceWf
  have hkeeps := engineWrite_keeps s
  have hcounters := engineWrite_engine s
  have hstatus := engineWrite_status s
  rw [hidx] at hsurf hsrc
  refine ⟨_, engineStep_wr h hb hno hphase, fun a => ?_, hsrc, hkeeps.platform, hkeeps.regs, hkeeps.source,
    hkeeps.pending, hkeeps.schedule, hkeeps.reads, hkeeps.memReads, hkeeps.latched, hkeeps.w, hkeeps.h,
    by simp [e], by simp, fun hk => ?_, fun hk => ?_⟩
  · rw [hsurf a]
    simp only [eq_comm]
    rfl
  · rw [hcounters, nextCounters_inRow hk, hstatus, if_pos (.inl hk)]
    exact ⟨rfl, rfl, rfl, rfl, rfl⟩
  · obtain ⟨hbank, hoff⟩ := bankStep_nextRow
      (e := { e with phase := .rd, k := 0, row := e.row + 1 }) hr.bank hr.rowOff
    rw [hcounters, nextCounters_rowEnd hk, hstatus]
    refine ⟨by simp, by simp, hbank, hoff, fun hmore => ?_, fun hlast => ?_⟩
    · exact if_pos (.inr (Nat.ne_of_lt hmore))
    · exact if_neg (not_or.2 ⟨hk, not_not.2 hlast⟩)

/-! ### The order of the accesses -/

/-- The engine's test for an overlap reads the parameters and the counters, and no data. -/
theorem overlaps_congr {p p' : Config.Platform} (hps : p'.pageSize = p.pageSize) (hw : p'.srcAddrW = p.srcAddrW)
    (hwin : p'.windows = p.windows) (e : Engine) (hold : Byte) : overlaps p' { e with hold := hold } = overlaps p e := by
  cases p
  cases p'
  dsimp only at hps hw hwin
  subst hps hw hwin
  rfl

/-- Settles O43: every test of the engine's step is over the parameters, the counters and `STATUS`, and the counters
after each half are too. -/
theorem accessOrderIndependentOfData : Obligations.AccessOrderIndependentOfData := by
  rintro s s' t hps hw hwin hst ⟨hold, he⟩ hstep
  have hover : overlaps s'.platform s'.engine = overlaps s.platform s.engine := by
    rw [he]
    exact overlaps_congr hps hw hwin s.engine hold
  have hsel : rasterizerSelected s'.engine = rasterizerSelected s.engine := by rw [he]; rfl
  have hidx : currentIndex s' = currentIndex s := by rw [currentIndex, currentIndex, he, hps]; rfl
  have hsize : surfaceSize s'.platform = surfaceSize s.platform := by rw [surfaceSize, surfaceSize, hps]
  have hphase : s'.engine.phase = s.engine.phase := by rw [he]
  have outcome := engineStep_outcome s
  rw [hstep] at outcome
  cases outcome with
  | idle hb => exact ⟨s', engineStep_of_idle (hst ▸ hb), hst, hold, he⟩
  | read hb hr ho hi hp =>
    have hstep' := engineStep_of_running (hst ▸ hb) (hsel.trans hr) (hover.trans ho) (by rw [hidx, hsize]; exact hi)
    rw [hphase, if_pos hp] at hstep'
    exact ⟨_, hstep', hst, memReadSurf s' (currentIndex s'), by simp [he]⟩
  | write hb hr ho hi hp =>
    have hstep' := engineStep_of_running (hst ▸ hb) (hsel.trans hr) (hover.trans ho) (by rw [hidx, hsize]; exact hi)
    rw [hphase, hp, if_neg nofun] at hstep'
    refine ⟨_, hstep', ?_, hold, ?_⟩
    · rw [engineWrite_status, engineWrite_status, hst, he]
      rfl
    · rw [engineWrite_engine, engineWrite_engine, he, nextCounters_withHold]

end Sys2Proof.Machine
end

section
/-! SUPPORT. A whole command: the span bytes in the order of the sequencer, the surface after any number of them, the run
that draws them, and the pixels at completion (R78 to R82). -/

namespace Sys2Proof.Machine

/-! ### Span bytes in the order of the sequencer -/

/-- `b` is a span byte of output row `i` (R75, R82). -/
def IsSpanByte (e : Engine) (i b : Nat) : Prop := i < e.h ∧ bfirst e ≤ b ∧ b ≤ blast e

/-- How many span bytes of the command come before span byte `b` of row `i` (R79). -/
def spanOrder (e : Engine) (i b : Nat) : Nat := i * spanBytes e + (b - bfirst e)

/-- The `WR` half goes on exactly while span bytes are left. -/
theorem order_succ_lt_iff {n height row k : Nat} (hk : k < n) (hrow : row < height) :
    row * n + k + 1 < n * height ↔ k + 1 < n ∨ row + 1 ≠ height := by
  rw [Nat.mul_comm n]
  by_cases hlast : row + 1 = height
  · subst hlast
    rw [Nat.succ_mul]
    omega
  · have hmore : (row + 2) * n ≤ height * n := Nat.mul_le_mul_right _ (by omega)
    rw [Nat.add_mul] at hmore
    omega

section Order

variable {p : Config.Platform} {e : Engine} {i b i' b' : Nat}

theorem IsSpanByte.offset_lt (h : IsSpanByte e i b) : b - bfirst e < spanBytes e := by
  obtain ⟨-, -, hlast⟩ := h
  exact Nat.lt_succ_of_le (Nat.sub_le_sub_right hlast _)

theorem IsSpanByte.order_lt (h : IsSpanByte e i b) : spanOrder e i b < spanBytes e * e.h := by
  calc spanOrder e i b < i * spanBytes e + spanBytes e := Nat.add_lt_add_left h.offset_lt _
    _ = (i + 1) * spanBytes e := (Nat.succ_mul _ _).symm
    _ ≤ e.h * spanBytes e := Nat.mul_le_mul_right _ h.1
    _ = spanBytes e * e.h := Nat.mul_comm _ _

/-- No two span bytes come at the same place. -/
theorem spanOrder_injective (h : IsSpanByte e i b) (h' : IsSpanByte e i' b')
    (heq : spanOrder e i b = spanOrder e i' b') : i = i' ∧ b = b' := by
  obtain ⟨hrow, hoffset⟩ := bank_offset_unique h.offset_lt h'.offset_lt heq
  obtain ⟨-, hfirst, -⟩ := h
  obtain ⟨-, hfirst', -⟩ := h'
  exact ⟨hrow, by omega⟩

/-- A span byte stands in a row of the screen (R68, R69). -/
theorem IsSpanByte.onScreen (h : IsSpanByte e i b) (hr : Running p e) :
    2 * b ≤ 319 ∧ e.latched.y.toNat + i ≤ 199 := by
  obtain ⟨hrow, -, hlast⟩ := h
  have hblast := hr.blast_le
  have hheight := hr.height
  omega

/-- A span byte has the index of another pixel's byte only if it is that byte (R65). -/
theorem IsSpanByte.eq_of_index_eq (h : IsSpanByte e i b) (hp : p.Legal) (hr : Running p e) {px py : Nat}
    (hx : px ≤ 319) (hy : py ≤ 199) (heq : (xlate p.pageSize px py).idx = spanIndex p e i b) :
    py = e.latched.y.toNat + i ∧ px / 2 = b := by
  obtain ⟨hb, hi⟩ := h.onScreen hr
  obtain ⟨hrow, hbyte⟩ := xlate_idx_injective hp.1 hx hy hb hi heq
  exact ⟨hrow, by omega⟩

theorem spanIndex_injective (hp : p.Legal) (hr : Running p e) (h : IsSpanByte e i b) (h' : IsSpanByte e i' b')
    (heq : spanIndex p e i b = spanIndex p e i' b') : i = i' ∧ b = b' := by
  obtain ⟨hb, hi⟩ := h.onScreen hr
  obtain ⟨hrow, hbyte⟩ := h'.eq_of_index_eq hp hr hb hi heq
  omega

/-- The `WR` half moves the counters one span byte on (R79). -/
theorem nextCounters_order (hk : e.k < spanBytes e) :
    (nextCounters e).row * spanBytes e + (nextCounters e).k = e.row * spanBytes e + e.k + 1 := by
  by_cases hmore : e.k + 1 < spanBytes e
  · rw [nextCounters_inRow hmore, Nat.add_assoc]
  · rw [nextCounters_rowEnd hmore, bankStep_row, bankStep_k]
    dsimp only
    rw [Nat.succ_mul]
    omega

end Order

/-! ### The surface after a number of span bytes -/

variable {s t u : State} {m : Nat}

theorem EngineKeeps.bfirst_eq (h : EngineKeeps s u) : bfirst u.engine = bfirst s.engine := by
  rw [bfirst, bfirst, h.latched]

theorem EngineKeeps.blast_eq (h : EngineKeeps s u) : blast u.engine = blast s.engine := by
  rw [blast, blast, lastColumn, lastColumn, h.latched, h.w]

theorem EngineKeeps.spanBytes_eq (h : EngineKeeps s u) : spanBytes u.engine = spanBytes s.engine := by
  rw [spanBytes, spanBytes, h.bfirst_eq, h.blast_eq]

/-- `u` is `s` after the engine has drawn the first `m` span bytes of the command of `s`: those hold their merged value,
and every other byte is as it was (R79, R82). -/
structure Progress (s : State) (m : Nat) (u : State) : Prop where
  inv : u.Inv
  keeps : EngineKeeps s u
  phase : u.engine.phase = .rd
  order : u.engine.row * spanBytes s.engine + u.engine.k = m
  status : u.status = if m < spanBytes s.engine * s.engine.h then s.status else setComplete s.status
  drawn : ∀ i b, IsSpanByte s.engine i b →
    memReadSurf u (spanIndex s.platform s.engine i b) =
      if spanOrder s.engine i b < m then merge s i b (memReadSurf s (spanIndex s.platform s.engine i b))
      else memReadSurf s (spanIndex s.platform s.engine i b)
  kept : ∀ idx, (∀ i b, IsSpanByte s.engine i b → idx ≠ spanIndex s.platform s.engine i b) →
    memReadSurf u idx = memReadSurf s idx

/-- Where a command starts, no span byte is drawn. -/
theorem Progress.start (h : s.Inv) (hb : s.status.busy = true) (hrow : s.engine.row = 0) (hk : s.engine.k = 0)
    (hphase : s.engine.phase = .rd) : Progress s 0 s where
  inv := h
  keeps := .refl s
  phase := hphase
  order := by rw [hrow, hk, Nat.zero_mul]
  status := (if_pos (Nat.mul_pos (Nat.succ_pos _) (h.running hb).hPos)).symm
  drawn _ _ _ := (if_neg (Nat.not_lt_zero _)).symm
  kept _ _ := rfl

theorem Progress.status_of_lt (h : Progress s m u) (hm : m < spanBytes s.engine * s.engine.h) :
    u.status = s.status := h.status.trans (if_pos hm)

theorem Progress.running (h : Progress s m u) (hb : s.status.busy = true)
    (hm : m < spanBytes s.engine * s.engine.h) : Running s.platform u.engine :=
  h.keeps.platform ▸ h.inv.running (by rw [h.status_of_lt hm]; exact hb)

/-- The premise of R123 keeps the source bytes of the bitmap as they were at acceptance (R82). -/
theorem Progress.bitmap_eq (h : Progress s m u) (hno : NoOverlap s.platform s.engine) {r j : Nat}
    (hr : r < s.engine.latched.hb.toNat) (hj : j < s.engine.latched.wb.toNat) :
    memReadSrc u (sourceAddr s.platform s.engine.latched r j) =
      memReadSrc s (sourceAddr s.platform s.engine.latched r j) := by
  refine memReadSrc_congr h.keeps.platform h.keeps.source fun idx halias => h.kept idx ?_
  rintro i b ⟨hi, hfirst, hlast⟩ rfl
  exact hno r j i b hr hj hi hfirst hlast halias

/-- The counters of a running engine name the span byte after the drawn ones. -/
theorem Progress.current (h : Progress s m u) (hr : Running s.platform u.engine) :
    IsSpanByte s.engine u.engine.row (currentByte u.engine) ∧
    spanOrder s.engine u.engine.row (currentByte u.engine) = m ∧
    currentIndex u = spanIndex s.platform s.engine u.engine.row (currentByte u.engine) := by
  have hbyte := hr.currentByte_le
  rw [h.keeps.blast_eq] at hbyte
  have hoffset : currentByte u.engine = bfirst s.engine + u.engine.k := by rw [currentByte, h.keeps.bfirst_eq]
  refine ⟨⟨h.keeps.h ▸ hr.row, by omega, hbyte⟩, ?_, ?_⟩
  · rw [spanOrder, hoffset, Nat.add_sub_cancel_left, h.order]
  · rw [currentIndex_eq (h.keeps.platform.symm ▸ hr), h.keeps.platform, h.keeps.latched]
    rfl

/-- The byte the two halves write is the merge of the byte at acceptance with the pixels at acceptance (R82). -/
theorem Progress.merge_eq (h : Progress s m u) (hs : Running s.platform s.engine)
    (hno : NoOverlap s.platform s.engine) (hr : Running s.platform u.engine) :
    merge (engineRead u) u.engine.row (currentByte u.engine) (memReadSurf u (currentIndex u)) =
      merge s u.engine.row (currentByte u.engine)
        (memReadSurf s (spanIndex s.platform s.engine u.engine.row (currentByte u.engine))) := by
  obtain ⟨hspan, horder, hidx⟩ := h.current hr
  have hold := h.drawn _ _ hspan
  rw [if_neg (by omega)] at hold
  rw [hidx, hold]
  exact merge_congr (u := engineRead u) hs h.keeps.platform h.keeps.latched h.keeps.w
    (fun r j hrow hcol => h.bitmap_eq hno hrow hcol) hspan.1 _ _

/-- The surface after the two halves of a span byte. -/
theorem memReadSurf_engineWrite_engineRead (h : u.Inv) (a : Nat) :
    memReadSurf (engineWrite (engineRead u)) a =
      if currentIndex u = a then
        merge (engineRead u) u.engine.row (currentByte u.engine) (memReadSurf u (currentIndex u))
      else memReadSurf u a :=
  memReadSurf_engineWrite (s := engineRead u) h.surfaceWf a

/-- The two halves draw the current span byte; any other one has another index and another place (R65, R79). -/
theorem Progress.next_drawn (h : Progress s m u) (hs : Running s.platform s.engine)
    (hno : NoOverlap s.platform s.engine) (hr : Running s.platform u.engine) {i b : Nat}
    (hib : IsSpanByte s.engine i b) :
    memReadSurf (engineWrite (engineRead u)) (spanIndex s.platform s.engine i b) =
      if spanOrder s.engine i b < m + 1 then merge s i b (memReadSurf s (spanIndex s.platform s.engine i b))
      else memReadSurf s (spanIndex s.platform s.engine i b) := by
  obtain ⟨hspan, horder, hidx⟩ := h.current hr
  rw [memReadSurf_engineWrite_engineRead h.inv]
  by_cases hhere : i = u.engine.row ∧ b = currentByte u.engine
  · obtain ⟨rfl, rfl⟩ := hhere
    rw [if_pos hidx, if_pos (by omega)]
    exact h.merge_eq hs hno hr
  · have hindex : currentIndex u ≠ spanIndex s.platform s.engine i b := fun heq =>
      hhere (spanIndex_injective (h.keeps.platform ▸ h.inv.platform) hs hib hspan (heq.symm.trans hidx))
    have hplace : spanOrder s.engine i b ≠ m := fun heq =>
      hhere (spanOrder_injective hib hspan (heq.trans horder.symm))
    rw [if_neg hindex, h.drawn i b hib]
    exact if_congr (by omega) rfl rfl

/-- The two halves of one span byte: they succeed, and one more span byte is drawn (R78, R79). -/
theorem Progress.next (h : Progress s m u) (hs : Running s.platform s.engine) (hb : s.status.busy = true)
    (hno : NoOverlap s.platform s.engine) (hm : m < spanBytes s.engine * s.engine.h) :
    engineStep u = .next (engineRead u) ∧ engineStep (engineRead u) = .next (engineWrite (engineRead u)) ∧
    Progress s (m + 1) (engineWrite (engineRead u)) := by
  have hr := h.running hb hm
  have hbu : u.status.busy = true := by rw [h.status_of_lt hm, hb]
  have hnou : NoOverlap u.platform u.engine := by
    rw [h.keeps.platform]
    exact hno.congr h.keeps.latched h.keeps.w h.keeps.h
  have hinv := engineRead_keeps_inv h.inv
  have hnb := h.keeps.spanBytes_eq
  refine ⟨engineStep_rd h.inv hbu hnou h.phase, engineStep_wr hinv hbu hnou rfl, ?_⟩
  exact
    { inv := engineWrite_keeps_inv hinv hbu
      keeps := h.keeps.trans ((engineRead_keeps u).trans (engineWrite_keeps _))
      phase := by simp
      order := by
        have hnext := nextCounters_order (e := (engineRead u).engine) hr.k
        rw [engineWrite_engine, ← h.order, ← hnb]
        exact hnext
      status := by
        rw [engineWrite_status, engineRead_status, h.status_of_lt hm, ← h.order]
        refine if_congr ?_ rfl rfl
        rw [order_succ_lt_iff (hnb ▸ hr.k) (h.keeps.h ▸ hr.row), ← hnb, ← h.keeps.h]
        rfl
      drawn := fun i b hib => h.next_drawn hs hno hr hib
      kept := fun idx hout => by
        obtain ⟨hspan, -, hidx⟩ := h.current hr
        rw [memReadSurf_engineWrite_engineRead h.inv, if_neg fun heq => hout _ _ hspan (heq.symm.trans hidx)]
        exact h.kept idx hout }

/-- The run of `2 * m` steps draws the first `m` span bytes, by induction on `m`. -/
theorem engineRun_progress (h : s.Inv) (hb : s.status.busy = true) (hno : NoOverlap s.platform s.engine)
    (hstart : Progress s 0 s) (hm : m ≤ spanBytes s.engine * s.engine.h) :
    ∃ u, engineRun (2 * m) s = .next u ∧ Progress s m u := by
  induction m with
  | zero => exact ⟨s, rfl, hstart⟩
  | succ m ih =>
    obtain ⟨u, hrun, hu⟩ := ih (by omega)
    obtain ⟨hread, hwrite, hnext⟩ := hu.next (h.running hb) hb hno hm
    refine ⟨_, ?_, hnext⟩
    rw [Nat.mul_succ, engineRun_add _ _ _ _ hrun]
    simp only [engineRun, hread, hwrite]

/-- After any number of steps that the command has left, half of them are span bytes drawn, and an odd one is a `RD` half
that leaves the surface as it is (R78). -/
theorem engineRun_of_lt (h : s.Inv) (hb : s.status.busy = true) (hno : NoOverlap s.platform s.engine)
    (hstart : Progress s 0 s) {n : Nat} (hn : n < 2 * (spanBytes s.engine * s.engine.h)) :
    ∃ u, Progress s (n / 2) u ∧ engineRun n s = .next (if n % 2 = 0 then u else engineRead u) := by
  have hm : n / 2 < spanBytes s.engine * s.engine.h := Nat.div_lt_of_lt_mul hn
  obtain ⟨u, hrun, hu⟩ := engineRun_progress h hb hno hstart hm.le
  refine ⟨u, hu, ?_⟩
  rw [← Nat.div_add_mod n 2, engineRun_add _ _ _ _ hrun, Nat.mul_add_mod, Nat.mod_mod]
  obtain hparity | hparity := Nat.mod_two_eq_zero_or_one n
  · rw [hparity]
    rfl
  · rw [hparity]
    simp only [engineRun, (hu.next (h.running hb) hb hno hm).1]
    rfl

/-! ### The completed command -/

/-- At completion every span byte is drawn (R82). -/
theorem Progress.completed_drawn (h : Progress s (spanBytes s.engine * s.engine.h) t) {i b : Nat}
    (hib : IsSpanByte s.engine i b) :
    memReadSurf t (spanIndex s.platform s.engine i b) =
      merge s i b (memReadSurf s (spanIndex s.platform s.engine i b)) :=
  (h.drawn i b hib).trans (if_pos hib.order_lt)

/-- The colour of a pixel is a nibble of the byte of its row that holds it (R37, R63). -/
theorem pixelOf_eq_nibbleAt (s : State) (px py : Nat) :
    pixelOf s px py = nibbleAt (memReadSurf s (xlate s.platform.pageSize (2 * (px / 2)) py).idx) (px % 2) := by
  rw [xlate_idx, Nat.mul_div_cancel_left _ (by decide : 0 < 2)]
  rfl

/-- At completion a pixel of a span byte has its `PixAt` value or is kept (R76, R77). -/
theorem Progress.completed_pixel (h : Progress s (spanBytes s.engine * s.engine.h) t) {i px : Nat}
    (hib : IsSpanByte s.engine i (px / 2)) :
    pixelOf t px (s.engine.latched.y.toNat + i) =
      (pixAt s i px).getD (pixelOf s px (s.engine.latched.y.toNat + i)) := by
  have hdrawn := h.completed_drawn hib
  rw [spanIndex] at hdrawn
  rw [pixelOf_eq_nibbleAt, pixelOf_eq_nibbleAt, h.keeps.platform, hdrawn,
    nibbleAt_merge _ _ _ _ (Nat.mod_lt _ (by decide)), Nat.div_add_mod]

/-- The byte of a pixel of the rectangle is a span byte (R75). -/
theorem isSpanByte_of_inRect {e : Engine} {px py : Nat} (h : inRect e px py) :
    IsSpanByte e (py - e.latched.y.toNat) (px / 2) := by
  obtain ⟨hleft, hright, htop, hbottom⟩ := h
  refine ⟨by omega, Nat.div_le_div_right hleft, Nat.div_le_div_right ?_⟩
  unfold lastColumn
  omega

/-- At completion a pixel of the rectangle has its `Pix` value or is kept. -/
theorem Progress.pixelOf_inRect (h : Progress s (spanBytes s.engine * s.engine.h) t) {px py : Nat}
    (hin : inRect s.engine px py) :
    pixelOf t px py =
      (pix s (py - s.engine.latched.y.toNat) (px - s.engine.latched.x.toNat)).getD (pixelOf s px py) := by
  have hpixel := h.completed_pixel (isSpanByte_of_inRect hin)
  obtain ⟨hleft, hright, htop, -⟩ := hin
  rwa [Nat.add_sub_of_le htop, pixAt_of_drawn hleft hright] at hpixel

/-- At completion a pixel outside the rectangle is kept: as an undrawn nibble of a span byte, or in another byte. -/
theorem Progress.pixelOf_outside (h : Progress s (spanBytes s.engine * s.engine.h) t)
    (hs : Running s.platform s.engine) {px py : Nat} (hx : px ≤ 319) (hy : py ≤ 199)
    (hout : ¬ inRect s.engine px py) : pixelOf t px py = pixelOf s px py := by
  by_cases hspan : ∃ i, py = s.engine.latched.y.toNat + i ∧ IsSpanByte s.engine i (px / 2)
  · obtain ⟨i, rfl, hib⟩ := hspan
    have hi := hib.1
    rw [h.completed_pixel hib, pixAt_of_undrawn (by omega)]
    rfl
  · have hkept := h.kept (xlate s.platform.pageSize px py).idx fun i b hib heq => by
      obtain ⟨hrow, rfl⟩ := hib.eq_of_index_eq (h.keeps.platform ▸ h.inv.platform) hs hx hy heq
      exact hspan ⟨i, hrow, hib⟩
    rw [pixelOf, h.keeps.platform, hkept]
    rfl

/-- Settles O37: the run of all steps draws every span byte, and no shorter one completes. -/
theorem commandIsSurfaceFunction : Obligations.CommandIsSurfaceFunction := by
  intro s h hb hno hrow hk hphase e
  have hstart := Progress.start h hb hrow hk hphase
  rw [Nat.mul_assoc]
  refine ⟨fun n hn => ?_, ?_⟩
  · obtain ⟨u, hu, hrun⟩ := engineRun_of_lt h hb hno hstart hn
    have hstatus := hu.status_of_lt (Nat.div_lt_of_lt_mul hn)
    refine ⟨_, hrun, ?_⟩
    split
    · exact hstatus
    · exact hstatus
  · obtain ⟨t, hrun, ht⟩ := engineRun_progress h hb hno hstart le_rfl
    have hkeeps := ht.keeps
    exact ⟨t, hrun, ht.status.trans (if_neg (Nat.lt_irrefl _)), hkeeps.regs, hkeeps.source, hkeeps.platform,
      hkeeps.pending, hkeeps.schedule, hkeeps.reads, hkeeps.memReads,
      fun i b hi hfirst hlast => ht.completed_drawn ⟨hi, hfirst, hlast⟩,
      fun px py _ _ hin => ht.pixelOf_inRect hin,
      fun px py hx hy hout => ht.pixelOf_outside (h.running hb) hx hy hout,
      fun idx hidx => ht.kept idx fun i b ⟨hi, hfirst, hlast⟩ => hidx i b hi hfirst hlast⟩

end Sys2Proof.Machine
end

section
/-! SUPPORT. A draw from its issue to its completion: the state in which an accepted, non-empty command starts, what its
bi-level pixels are in terms of the request registers, and the whole bi-level draw (R84, R85, R87, R97). -/

namespace Sys2Proof.Machine

variable {s : State} {i : Instr} {v : Word}

/-! ### The start of a command -/

/-- The state right after an idle block accepted command word `v` for a draw that is not empty (R97). -/
def startedState (v : Word) (s : State) : State :=
  { s with
    regs := { s.regs with cmd := v }
    status := { busy := true, done := false, err := .none, ovr := false }
    engine := acceptedEngine v s
    pending := s.pending.tail }

/-- A request that passes the checks and describes at least one byte and row has a pixel on the screen (R68, R69). -/
theorem acceptedEngine_nonempty (hcheck : check v s = .none) (hwb : s.regs.wbytes ≠ 0) (hhb : s.regs.hbytes ≠ 0) :
    (acceptedEngine v s).w ≠ 0 ∧ (acceptedEngine v s).h ≠ 0 := by
  obtain ⟨-, hreq⟩ := (check_eq_none_iff v s).1 hcheck
  have hx := hreq.xorg
  have hy := hreq.yorg
  have hbytes := Nat.pos_of_ne_zero (mt (word_eq_zero_iff _).2 hwb)
  have hrows := Nat.pos_of_ne_zero (mt (word_eq_zero_iff _).2 hhb)
  have hpps : 0 < pixelsPerByte (v.extractLsb' 0 2) := by
    unfold pixelsPerByte
    split <;> decide
  rw [acceptedEngine_w, acceptedEngine_h, ← Nat.pos_iff_ne_zero, ← Nat.pos_iff_ne_zero, lt_min_iff, lt_min_iff]
  exact ⟨⟨Nat.mul_pos (Nat.mul_pos hbytes hpps) hreq.xscale, by omega⟩, Nat.mul_pos hrows hreq.yscale, by omega⟩

/-- An idle block starts a command that passes the checks and is not empty (R95, R97). -/
theorem exec_starts (hb : s.status.busy = false) (hcode : encode i = .command v) (hcheck : check v s = .none)
    (hwb : s.regs.wbytes ≠ 0) (hhb : s.regs.hbytes ≠ 0) : exec i s = .next (startedState v s) := by
  obtain ⟨hw, hh⟩ := acceptedEngine_nonempty hcheck hwb hhb
  have hflag : ((acceptedEngine v s).w == 0 || (acceptedEngine v s).h == 0) = false := by simp [hw, hh]
  rw [exec_accepted hb hcode hcheck, hflag]
  rfl

/-- A started command keeps the invariant. -/
theorem startedState_inv (h : s.Inv) (hcheck : check v s = .none) (hwb : s.regs.wbytes ≠ 0)
    (hhb : s.regs.hbytes ≠ 0) : (startedState v s).Inv := by
  obtain ⟨hw, hh⟩ := acceptedEngine_nonempty hcheck hwb hhb
  exact h.of_memories_eq rfl rfl rfl (setAccepted_legal false) fun _ => Running.of_accepted hcheck hw hh

/-- The source addresses of a started command in terms of the request registers (R18, R40). -/
theorem sourceAddr_started (v : Word) (s : State) (r j : Nat) :
    sourceAddr s.platform (acceptedEngine v s).latched r j =
      ((s.regs.srcHi.toNat * 2 ^ 16 + s.regs.srcLo.toNat) % 2 ^ s.platform.srcAddrW + r * s.regs.wbytes.toNat + j) %
        2 ^ s.platform.srcAddrW := by
  rw [← sourceBase_toNat]
  rfl

/-! ### Bi-level pixels -/

/-- The colour of a background pixel over an old one: the sentinel keeps it (R26, R84, R90). -/
theorem backgroundPix_getD (s : State) (old : Nibble) :
    (backgroundPix s).getD old =
      if s.engine.latched.bg = s.platform.transparent then old else BitVec.ofNat 4 s.engine.latched.bg.toNat := by
  unfold backgroundPix
  split
  · rfl
  · exact extractLow_eq _

/-- The bi-level pixel over an old one: the foreground where the source bit is 1, else the background pixel (R84). -/
theorem pix_getD_of_bilevel (hop : s.engine.latched.op = opBilevel) (row col : Nat) (old : Nibble) :
    (pix s row col).getD old =
      if bilevelSource s (sourceRow s.engine.latched row) (scanColumn s.engine.latched col) then s.engine.latched.fg
      else (backgroundPix s).getD old := by
  rw [pix, if_pos hop, biPix]
  split <;> rfl

/-- The source bit of a started bi-level draw, read from the source at acceptance (R39, R40). -/
theorem bilevelSource_started (v : Word) (s : State) (r c : Nat) :
    bilevelSource (startedState v s) r c =
      (memReadSrc s (((s.regs.srcHi.toNat * 2 ^ 16 + s.regs.srcLo.toNat) % 2 ^ s.platform.srcAddrW +
        r * s.regs.wbytes.toNat + c / 8) % 2 ^ s.platform.srcAddrW)).getLsbD (7 - c % 8) := by
  rw [← sourceAddr_started v]
  rfl

/-- Settles O39: the run of the started command draws its `Pix` values (O37), which are those of R84 for the request. -/
theorem drawBilevelDraws : Obligations.DrawBilevelDraws := by
  intro s h hb hreq hwb hhb r w height base nb hapart
  have hcheck : check 0x0001#16 s = .none := (check_eq_none_iff _ _).2 ⟨rfl, hreq.imp fun _ => trivial⟩
  have hno : NoOverlap s.platform (acceptedEngine 0x0001#16 s) := fun row j i b hrow hj hi hfirst hlast => by
    rw [sourceAddr_started]
    exact hapart row j i b hrow hj hi hfirst hlast
  obtain ⟨-, t, hrun, hstatus, hregs, hsource, hplatform, hpending, hschedule, hreads, hmemReads, -, hin, hout, -⟩ :=
    commandIsSurfaceFunction (startedState 0x0001#16 s) (startedState_inv h hcheck hwb hhb) rfl hno rfl rfl rfl
  refine ⟨startedState 0x0001#16 s, t, exec_starts hb rfl hcheck hwb hhb, rfl, hrun, hstatus, hregs, hsource, hplatform,
    hpending, hschedule, hreads, hmemReads, fun px py hx hy => ⟨fun hrect => ?_, hout px py hx hy⟩⟩
  have hfg : (startedState 0x0001#16 s).engine.latched.fg = BitVec.ofNat 4 r.fg.toNat := extractLow_eq r.fg
  rw [hin px py hx hy hrect, pix_getD_of_bilevel rfl, bilevelSource_started, backgroundPix_getD, hfg]
  rfl

end Sys2Proof.Machine
end

section
/-! SUPPORT. The multi-level draw: its pixels in terms of the request registers, the whole draw from issue to
completion, the mirrored column order, and the draw that reads back as its source (R89 to R94). -/

namespace Sys2Proof.Machine

/-! ### Multi-level pixels -/

/-- A multi-level command draws the values of R90 (R74). -/
theorem pix_of_multilevel {s : State} (hop : s.engine.latched.op = opMultilevel) (row col : Nat) :
    pix s row col = mlPix s row col :=
  if_neg (by rw [hop]; decide)

/-- The multi-level pixel over an old one: the source nibble unless it is 0, else the background pixel (R90). -/
theorem mlPix_getD (s : State) (row col : Nat) (old : Nibble) :
    (mlPix s row col).getD old =
      if multilevelSource s (sourceRow s.engine.latched row) (multilevelColumn s.engine.latched col) ≠ 0 then
        multilevelSource s (sourceRow s.engine.latched row) (multilevelColumn s.engine.latched col)
      else (backgroundPix s).getD old := by
  rw [mlPix]
  split <;> rfl

/-! ### The whole draw -/

/-- `OP` of both command words of the multi-level draw (R55, R57). -/
theorem multilevelCommand_op (invx : Bool) : (multilevelCommand invx).extractLsb' 0 2 = opMultilevel := by
  cases invx <;> rfl

/-- `INVX` of both command words of the multi-level draw (R55, R57). -/
theorem multilevelCommand_invx (invx : Bool) : (multilevelCommand invx).getLsbD 2 = invx := by
  cases invx <;> rfl

/-- A multi-level draw has two source pixels in a byte (R68). -/
theorem acceptedEngine_multilevel_w (invx : Bool) (s : State) :
    (acceptedEngine (multilevelCommand invx) s).w =
      min (s.regs.wbytes.toNat * 2 * s.regs.xscale.toNat) (320 - s.regs.xorg.toNat) := by
  rw [acceptedEngine_w, multilevelCommand_op]
  rfl

/-- The source column of a started draw in terms of the request registers (R72, R89). -/
theorem multilevelColumn_started (invx : Bool) (s : State) (col : Nat) :
    multilevelColumn (startedState (multilevelCommand invx) s).engine.latched col =
      if invx then 2 * s.regs.wbytes.toNat - 1 - col / s.regs.xscale.toNat else col / s.regs.xscale.toNat := by
  have hinvx : (startedState (multilevelCommand invx) s).engine.latched.invx = invx := multilevelCommand_invx invx
  rw [multilevelColumn, hinvx]
  rfl

/-- The source nibble of a started draw, read from the source at acceptance (R39, R40). -/
theorem multilevelSource_started (v : Word) (s : State) (r c : Nat) :
    multilevelSource (startedState v s) r c =
      nibbleAt (memReadSrc s (((s.regs.srcHi.toNat * 2 ^ 16 + s.regs.srcLo.toNat) % 2 ^ s.platform.srcAddrW +
        r * s.regs.wbytes.toNat + c / 2) % 2 ^ s.platform.srcAddrW)) (c % 2) := by
  rw [← sourceAddr_started v]
  rfl

/-- Settles O40: the run of the started command draws its `Pix` values (O37), which are those of R90 for the request. -/
theorem drawMultilevelDraws : Obligations.DrawMultilevelDraws := by
  intro s invx h hb hreq hwb hhb r w height base nb hapart
  obtain ⟨v, hcode, hcheck, -⟩ := check_of_legalDraw (i := .drawMultilevel invx) (.inr ⟨⟨invx, rfl⟩, hreq⟩)
  obtain rfl : multilevelCommand invx = v := HostWord.command.inj hcode
  have hw : (acceptedEngine (multilevelCommand invx) s).w = w := acceptedEngine_multilevel_w invx s
  have hlast : blast (acceptedEngine (multilevelCommand invx) s) = (r.xorg.toNat + w - 1) / 2 := by
    rw [blast, lastColumn, hw]
    rfl
  have hnb : spanBytes (acceptedEngine (multilevelCommand invx) s) = nb := by
    rw [spanBytes, hlast]
    rfl
  have hno : NoOverlap s.platform (acceptedEngine (multilevelCommand invx) s) :=
    fun row j i b hrow hj hi hfirst hbound => by
      rw [sourceAddr_started]
      exact hapart row j i b hrow hj hi hfirst (hlast ▸ hbound)
  obtain ⟨-, t, hrun, hstatus, hregs, hsource, hplatform, hpending, hschedule, hreads, hmemReads, -, hin, hout, -⟩ :=
    commandIsSurfaceFunction (startedState (multilevelCommand invx) s) (startedState_inv h hcheck hwb hhb) rfl hno rfl
      rfl rfl
  have hrect : ∀ px py, inRect (startedState (multilevelCommand invx) s).engine px py ↔
      r.xorg.toNat ≤ px ∧ px < r.xorg.toNat + w ∧ r.yorg.toNat ≤ py ∧ py < r.yorg.toNat + height := fun px py => by
    rw [← hw]
    rfl
  refine ⟨startedState (multilevelCommand invx) s, t, exec_starts hb rfl hcheck hwb hhb, rfl, hnb ▸ hrun, hstatus,
    hregs, hsource, hplatform, hpending, hschedule, hreads, hmemReads, fun px py hx hy =>
    ⟨fun hdrawn => ?_, fun hkept => hout px py hx hy (mt (hrect px py).1 hkept)⟩⟩
  rw [hin px py hx hy ((hrect px py).2 hdrawn), pix_of_multilevel (multilevelCommand_op invx), mlPix_getD,
    multilevelColumn_started, multilevelSource_started, backgroundPix_getD]
  rfl

/-! ### Mirror -/

/-- The mirrored draw of a full row takes its source columns from the right (R89, R92). -/
theorem multilevelColumn_mirrored {l : Latched} {col : Nat} (hinvx : l.invx = false)
    (hcol : col < 2 * l.wb.toNat * l.xs.toNat) :
    multilevelColumn { l with invx := true } col = multilevelColumn l (2 * l.wb.toNat * l.xs.toNat - 1 - col) := by
  rw [Nat.mul_comm] at hcol ⊢
  have hdiv := Nat.mul_sub_div col l.xs.toNat (2 * l.wb.toNat) hcol
  simp only [multilevelColumn, scanColumn, hinvx, if_true, Bool.false_eq_true, if_false]
  rw [Nat.sub_sub, Nat.sub_sub, Nat.add_comm 1, Nat.add_comm 1, hdiv]

/-- Settles O33: the two draws differ in the source column alone, and mirrored columns are those of the other side. -/
theorem mirrorLaw : Obligations.MirrorLaw := by
  intro s s' i j hop hinvx hs' _ hw hj
  have hop' : s'.engine.latched.op = opMultilevel := hs' ▸ hop
  have hcolumn := multilevelColumn_mirrored hinvx (hw ▸ hj)
  rw [pix_of_multilevel hop', pix_of_multilevel hop, hw, mlPix, mlPix, ← hcolumn, hs']
  rfl

/-! ### Read back -/

/-- A byte is its two nibbles (R10). -/
theorem hiNibble_append_loNibble (b : Byte) : hiNibble b ++ loNibble b = b :=
  BitVec.extractLsb'_append_extractLsb' (w := 4) (len := 4)

/-- Bytes with the same nibbles are the same. -/
theorem byte_eq_of_nibbleAt {b b' : Byte} (h : ∀ pos, pos < 2 → nibbleAt b pos = nibbleAt b' pos) : b = b' := by
  have hhi : hiNibble b = hiNibble b' := h 0 (by decide)
  have hlo : loNibble b = loNibble b' := h 1 (by decide)
  rw [← hiNibble_append_loNibble b, hhi, hlo, hiNibble_append_loNibble]

/-- With `BG = 0` a multi-level command draws every source nibble, 0 included: 0 is not the sentinel (R7, R94). -/
theorem mlPix_of_bg_zero {s : State} (hp : s.platform.Legal) (hbg : s.engine.latched.bg = 0) (row col : Nat) :
    mlPix s row col =
      some (multilevelSource s (sourceRow s.engine.latched row) (multilevelColumn s.engine.latched col)) := by
  have hcolour : s.engine.latched.bg ≠ s.platform.transparent := fun heq => by
    have hsentinel := hp.2.1
    rw [← heq, hbg] at hsentinel
    exact absurd hsentinel (by decide)
  rw [mlPix, backgroundPix, if_neg hcolour, hbg]
  split
  · rfl
  · next hzero =>
    rw [not_not.1 hzero]
    rfl

/-- Unscaled and unmirrored, output row and column are source row and column (R72, R89). -/
theorem source_eq_of_unscaled {l : Latched} (hinvx : l.invx = false) (hxs : l.xs = 1) (hys : l.ys = 1) (row col : Nat) :
    sourceRow l row = row ∧ multilevelColumn l col = col := by
  rw [sourceRow, multilevelColumn, hinvx, scanColumn, hxs, hys]
  exact ⟨Nat.div_one row, Nat.div_one col⟩

/-- An unscaled multi-level draw whose full row fits on the screen is not clamped (R68). -/
theorem clampedWidth_unscaled {l : Latched} (hop : l.op = opMultilevel) (hxs : l.xs = 1)
    (hfits : l.x.toNat + 2 * l.wb.toNat ≤ 320) : clampedWidth l = 2 * l.wb.toNat := by
  have hfull : l.wb.toNat * pixelsPerByte l.op * l.xs.toNat = 2 * l.wb.toNat := by
    rw [hop, hxs, Nat.mul_comm 2]
    exact Nat.mul_one _
  rw [clampedWidth, hfull]
  exact min_eq_left (Nat.le_sub_of_add_le' hfits)

/-- An unscaled draw whose rows fit on the screen is not clamped (R69). -/
theorem clampedHeight_unscaled {l : Latched} (hys : l.ys = 1) (hfits : l.y.toNat + l.hb.toNat ≤ 200) :
    clampedHeight l = l.hb.toNat := by
  rw [clampedHeight, hys, show (1 : Word).toNat = 1 from rfl, Nat.mul_one]
  exact min_eq_left (Nat.le_sub_of_add_le' hfits)

/-- Two source columns that follow one another from an even one share a byte (R39). -/
theorem multilevelSource_pair (s : State) (r j : Nat) {pos : Nat} (hpos : pos < 2) :
    multilevelSource s r (2 * j + pos) =
      nibbleAt (memReadSrc s (sourceAddr s.platform s.engine.latched r j)) pos := by
  have hbyte : (2 * j + pos) / 2 = j := by omega
  have hplace : (2 * j + pos) % 2 = pos := by omega
  rw [multilevelSource, xlateCol, hbyte, hplace]

/-- An even origin is the high nibble of the first span byte (R75). -/
theorem two_mul_bfirst_of_even {e : Engine} (heven : e.latched.x.toNat % 2 = 0) :
    2 * bfirst e = e.latched.x.toNat :=
  Nat.mul_div_cancel' (Nat.dvd_of_mod_eq_zero heven)

/-- At an even origin, where the drawn pixels of a row are its source nibbles, a merged byte is a source byte (R77). -/
theorem merge_eq_source {s : State} (heven : s.engine.latched.x.toNat % 2 = 0) {r j : Nat}
    (hpix : ∀ col, pix s r col = some (multilevelSource s r col)) (hj : 2 * j + 1 < s.engine.w) (old : Byte) :
    merge s r (bfirst s.engine + j) old = memReadSrc s (sourceAddr s.platform s.engine.latched r j) := by
  refine byte_eq_of_nibbleAt fun pos hpos => ?_
  have hfirst := two_mul_bfirst_of_even heven
  have hcolumn : 2 * (bfirst s.engine + j) + pos = s.engine.latched.x.toNat + (2 * j + pos) := by omega
  rw [nibbleAt_merge s r _ old hpos, hcolumn, pixAt_of_drawn (Nat.le_add_right _ _) (by omega),
    Nat.add_sub_cancel_left, hpix, multilevelSource_pair s r j hpos]
  rfl

/-- Settles O41: the span byte of source byte `j` of row `r` is drawn (O37), and its merged value is that byte. -/
theorem multilevelReadBack : Obligations.MultilevelReadBack := by
  intro s h hb hno hrow hk hphase l hop hinvx hbg hxs hys hwidth hheight heven
  obtain ⟨-, t, hrun, -, -, -, -, -, -, -, -, hdrawn, -⟩ := commandIsSurfaceFunction s h hb hno hrow hk hphase
  have hw : s.engine.w = 2 * l.wb.toNat := (h.running hb).w.trans (clampedWidth_unscaled hop hxs hwidth)
  have hh : s.engine.h = l.hb.toNat := (h.running hb).h.trans (clampedHeight_unscaled hys hheight)
  refine ⟨t, hrun, fun r j hr hj => ?_⟩
  have hpix : ∀ col, pix s r col = some (multilevelSource s r col) := fun col => by
    obtain ⟨hsrcRow, hsrcCol⟩ := source_eq_of_unscaled hinvx hxs hys r col
    rw [pix_of_multilevel hop, mlPix_of_bg_zero h.platform hbg, hsrcRow, hsrcCol]
  have hcolumn : l.x.toNat + 2 * j = 2 * (bfirst s.engine + j) := by
    rw [Nat.mul_add, two_mul_bfirst_of_even heven]
  have hlast : bfirst s.engine + j ≤ (l.x.toNat + s.engine.w - 1) / 2 := by omega
  rw [hcolumn, hdrawn r (bfirst s.engine + j) (hh ▸ hr) (Nat.le_add_right _ _) hlast]
  exact merge_eq_source heven hpix (by omega) _

end Sys2Proof.Machine
end

section
/-! SUPPORT. The issue of a command by a `CMD` write: overrun, the first check that fails, and the accepted state in terms
of the request registers; that nothing else starts the engine, and that a started one does not fault (R95 to R105). -/

namespace Sys2Proof.Machine

/-! ### Overrun -/

/-- Settles O12: the write, and every draw as the write of its word, is the overrun of R98. -/
theorem commandWhileBusyDropped : Obligations.CommandWhileBusyDropped := by
  intro s v hb dropped
  have hwrite : exec (.wr 0x00 v) s = .next dropped := by
    rw [exec_wr_cmd, onCmdWrite_busy hb]
    rfl
  exact ⟨hwrite, fun i hcode => (exec_of_encode_command hcode s).trans hwrite⟩

/-! ### A running engine -/

theorem step_of_engineTurn {s : State} (h : EngineTurn s) : step s = engineStep (takeTurn s) := by
  simp [step, runTurn, mover_engine h]

/-- Settles O55: the choice of a step changes nothing that the engine's guards read, and the invariant meets them all. -/
theorem runningEngineNeverFaults : Obligations.RunningEngineNeverFaults := by
  intro s h hno hturn
  have hbusy : (takeTurn s).status.busy = true := by rw [takeTurn_status]; exact hturn.1
  have hclear : overlaps (takeTurn s).platform (takeTurn s).engine = false := by
    rw [takeTurn_platform, takeTurn_engine]
    exact hno.overlaps_eq_false (h.running hturn.1)
  exact ⟨_, (step_of_engineTurn hturn).trans (engineStep_of_inv (takeTurn_keeps_inv h) hbusy hclear)⟩

/-! ### The accepted state -/

/-- `STATUS` after acceptance: running, or completed at once for an empty draw (R70, R97). -/
theorem setAccepted_idle (w h : Nat) :
    setAccepted (w == 0 || h == 0) { busy := false, done := false, err := .none, ovr := false } =
      { busy := decide (w ≠ 0 ∧ h ≠ 0), done := decide (w = 0 ∨ h = 0), err := .none, ovr := false } := by
  by_cases hw : w = 0 <;> by_cases hh : h = 0 <;> simp [setAccepted, hw, hh]

/-- The accepted engine in terms of the request registers (R29, R67 to R69, R97). -/
theorem acceptedEngine_eq (v : Word) (s : State) :
    acceptedEngine v s =
      { latched :=
          { op := v.extractLsb' 0 2, invx := v.getLsbD 2
            src := BitVec.ofNat 32 ((s.regs.srcHi.toNat * 2 ^ 16 + s.regs.srcLo.toNat) % 2 ^ s.platform.srcAddrW)
            wb := s.regs.wbytes, hb := s.regs.hbytes, x := s.regs.xorg, y := s.regs.yorg
            xs := s.regs.xscale, ys := s.regs.yscale
            fg := BitVec.ofNat 4 s.regs.fg.toNat, bg := s.regs.bg }
        w := (acceptedEngine v s).w, h := (acceptedEngine v s).h
        row := 0, bank := Fin.ofNat 4 s.regs.yorg.toNat, rowOff := s.regs.yorg.toNat / 4 * 160
        k := 0, phase := .rd, hold := s.engine.hold } := by
  rw [← sourceBase_eq, ← extractLow_eq]
  rfl

/-- Settles O7: the checks pass, and the accepted engine holds the request of the registers. -/
theorem drawBilevelAccepted : Obligations.DrawBilevelAccepted := by
  intro s hb hreq w h
  have hcheck : check 0x0001#16 s = .none := (check_eq_none_iff _ _).2 ⟨rfl, hreq.imp fun _ => trivial⟩
  refine ⟨s.engine.hold, ?_⟩
  rw [exec_accepted (i := .drawBilevel) hb rfl hcheck, setAccepted_idle, acceptedEngine_eq]
  rfl

/-- Settles O8: as for the bi-level draw, with the opcode and `INVX` of the command word. -/
theorem drawMultilevelAccepted : Obligations.DrawMultilevelAccepted := by
  intro s invx hb hreq w h
  obtain ⟨v, hcode, hcheck, -⟩ := check_of_legalDraw (i := .drawMultilevel invx) (.inr ⟨⟨invx, rfl⟩, hreq⟩)
  obtain rfl : multilevelCommand invx = v := HostWord.command.inj hcode
  refine ⟨s.engine.hold, ?_⟩
  rw [exec_accepted hb hcode hcheck, setAccepted_idle, acceptedEngine_eq, acceptedEngine_multilevel_w,
    multilevelCommand_op, multilevelCommand_invx]
  rfl

/-! ### The first check that fails -/

/-- Of the three command words only that of `DRAW_BILEVEL` has its opcode (R57). -/
theorem op_eq_bilevel_iff {v : Word} (h : legalCommand v = true) : v.extractLsb' 0 2 = opBilevel ↔ v = 0x0001#16 := by
  obtain rfl | rfl | rfl := (legalCommand_iff v).1 h <;> decide

/-- The checks of R96 as tests of the command word and the request registers, in the priority of R105. -/
theorem check_priority (v : Word) (s : State) :
    check v s =
      if v ≠ 0x0001#16 ∧ v ≠ 0x0002#16 ∧ v ≠ 0x0006#16 then .badOp
      else if s.regs.xorg.toNat > 319 ∨ s.regs.yorg.toNat > 199 then .origin
      else if s.regs.xscale = 0 ∨ s.regs.yscale = 0 then .scale
      else if (v = 0x0001#16 ∧ s.regs.fg.toNat > 15) ∨
          ¬ (s.regs.bg.toNat ≤ 15 ∨ s.regs.bg = s.platform.transparent) then .color
      else .none := by
  simp only [check_eq, ← legalCommand_eq_false_iff, ← word_eq_zero_iff]
  cases hlegal : legalCommand v with
  | false => rfl
  | true => simp only [op_eq_bilevel_iff hlegal]; rfl

/-- Settles O10: the write is the rejection with the first code of R105, or the acceptance. -/
theorem rejectionByPriority : Obligations.RejectionByPriority := by
  intro s v hb rejected badOp badOrigin badScale badColor
  have hcheck : check v s =
      if badOp then .badOp else if badOrigin then .origin else if badScale then .scale
      else if badColor then .color else .none := check_priority v s
  have hreject : ∀ code ≠ ErrCode.none, check v s = code → exec (.wr 0x00 v) s = .next (rejected code) := by
    intro code hcode hfirst
    rw [exec_wr_cmd, onCmdWrite_rejected hb hfirst hcode]
    rfl
  refine ⟨fun hop => ?_, fun hop horigin => ?_, fun hop horigin hscale => ?_, fun hop horigin hscale hcolor => ?_,
    fun hop horigin hscale hcolor => ?_, fun i hcode => exec_of_encode_command hcode s⟩
  · exact hreject _ nofun (by rw [hcheck, if_pos hop])
  · exact hreject _ nofun (by rw [hcheck, if_neg hop, if_pos horigin])
  · exact hreject _ nofun (by rw [hcheck, if_neg hop, if_neg horigin, if_pos hscale])
  · exact hreject _ nofun (by rw [hcheck, if_neg hop, if_neg horigin, if_neg hscale, if_pos hcolor])
  · have hpass : check v s = .none := by
      rw [hcheck, if_neg hop, if_neg horigin, if_neg hscale, if_neg hcolor]
    rw [exec_wr_cmd, onCmdWrite_accepted hb hpass, setAccepted_idle]
    exact ⟨_, rfl, rfl, rfl⟩

/-! ### Only a `CMD` write starts the engine -/

/-- The three ways in which an event of the host writes `v` to `CMD` (R16, R54, R60). -/
def IsCommandWrite (ev : HostEvent) (v : Word) : Prop :=
  ev = .word (.command v) ∨ ev = .port 2 0x00 (some v) ∨
    ∃ w, ev = .word (.stream w) ∧ decodeStream w = .ok (.wr 0x00 v)

/-- `CMD` stands at offset 0 alone (R14). -/
theorem offset_of_regAt_cmd {offset : Nat} (h : regAt offset = some .cmd) : offset = 0x00 := by
  unfold regAt at h
  split at h <;> cases h
  rfl

/-- An instruction keeps `STATUS`, or it is the `CMD` write of some word. -/
theorem exec_status {i : Instr} {s t : State} (h : exec i s = .next t) :
    t.status = s.status ∨
      ∃ v, (i = .wr 0x00 v ∨ encode i = .command v) ∧ t = advance (onCmdWrite v s) := by
  cases i with
  | drawBilevel => cases h; exact .inr ⟨_, .inr rfl, rfl⟩
  | drawMultilevel invx => cases h; exact .inr ⟨_, .inr rfl, rfl⟩
  | wr offset v =>
    cases hat : regAt offset with
    | none => simp [exec, execWr, hat] at h
    | some r =>
      by_cases hr : r = .cmd
      · subst hr
        obtain rfl := offset_of_regAt_cmd hat
        cases h
        exact .inr ⟨v, .inl rfl, rfl⟩
      · rw [exec_wr_of_ne_cmd hat hr] at h
        cases h
        exact .inl rfl
  | rd offset =>
    obtain ⟨r, rfl⟩ := execRd_next h
    exact .inl rfl
  | wait =>
    simp only [exec, execWait] at h
    split at h <;> cases h <;> exact .inl rfl

/-- Only a command word is a reserved command word (R58, R60). -/
theorem eq_command_of_reserved {w : HostWord} {v : Word} (h : decode w = .error (.reservedCommand v)) :
    w = .command v := by
  cases w with
  | command u =>
    have hreserved := decode_reservedCommand ((decode_command_error_iff u).1 ⟨_, h⟩)
    rw [h] at hreserved
    cases hreserved
    rfl
  | stream w =>
    rw [decode, decodeStream] at h
    repeat' split at h
    all_goals cases h

/-- A host word keeps `STATUS`, or it writes `CMD`. -/
theorem runWord_status {w : HostWord} {s t : State} (h : runWord w s = .next t) :
    t.status = s.status ∨ ∃ v, IsCommandWrite (.word w) v ∧ t = advance (onCmdWrite v s) := by
  unfold runWord at h
  split at h
  · next i hd =>
    obtain ⟨-, rfl⟩ := encodeOfDecode w i hd
    obtain hst | ⟨v, rfl | hcode, ht⟩ := exec_status h
    · exact .inl hst
    · exact .inr ⟨v, .inr (.inr ⟨_, rfl, hd⟩), ht⟩
    · exact .inr ⟨v, .inl (congrArg HostEvent.word hcode), ht⟩
  · next v hd =>
    cases h
    exact .inr ⟨v, .inl (congrArg HostEvent.word (eq_command_of_reserved hd)), rfl⟩
  · cases h

/-- A raw access to the register port keeps `STATUS`, or it writes `CMD`. -/
theorem runPort_status {bytes offset : Nat} {value : Option Word} {s t : State}
    (h : runPort bytes offset value s = .next t) :
    t.status = s.status ∨ ∃ v, IsCommandWrite (.port bytes offset value) v ∧ t = advance (onCmdWrite v s) := by
  unfold runPort at h
  split at h
  · next hbytes =>
    subst hbytes
    cases value with
    | none =>
      obtain ⟨r, rfl⟩ := execRd_next h
      exact .inl rfl
    | some u =>
      obtain hst | ⟨v, hi | hcode, ht⟩ := exec_status h
      · exact .inl hst
      · cases hi
        exact .inr ⟨u, .inr (.inl rfl), ht⟩
      · cases hcode
  · cases h

theorem hostReadSource_status {a : Nat} {s t : State} (h : hostReadSource a s = .next t) : t.status = s.status := by
  unfold hostReadSource at h
  split at h
  · cases h
  split at h
  · rw [hostReadSurface_next h]
    rfl
  · cases h
    rfl

theorem hostWriteSource_status {a : Nat} {v : Byte} {s t : State} (h : hostWriteSource a v s = .next t) :
    t.status = s.status := by
  unfold hostWriteSource at h
  split at h
  · cases h
  split at h
  · obtain ⟨-, rfl⟩ := hostWriteSurface_next h
    rfl
  split at h
  · cases h
  · cases h
    exact hostWriteSrc_status a v s

/-- An event of the host keeps `STATUS`, resets it, or writes `CMD`. -/
theorem runEvent_status {ev : HostEvent} {s t : State} (h : runEvent ev s = .next t) :
    t.status = s.status ∨ t.status = Status.reset ∨
      ∃ v, IsCommandWrite ev v ∧ t = advance (onCmdWrite v s) := by
  cases ev with
  | word w => exact (runWord_status h).imp_right .inr
  | port bytes offset value => exact (runPort_status h).imp_right .inr
  | surfaceRead idx => exact .inl (by rw [hostReadSurface_next h]; rfl)
  | surfaceWrite idx v =>
    obtain ⟨-, rfl⟩ := hostWriteSurface_next h
    exact .inl rfl
  | sourceRead a => exact .inl (hostReadSource_status h)
  | sourceWrite a v => exact .inl (hostWriteSource_status h)
  | reset => cases h; exact .inr (.inl rfl)

/-- A `CMD` write that starts an idle engine passed the checks (R97, R99). -/
theorem check_of_onCmdWrite_busy {v : Word} {s : State} (hb : s.status.busy = false)
    (h : (onCmdWrite v s).status.busy = true) : check v s = .none := by
  by_contra hcheck
  rw [onCmdWrite_rejected hb rfl hcheck] at h
  cases h

/-- Settles O14: an idle block steps by the host's event alone, and of the events only a `CMD` write can raise `BUSY`. -/
theorem onlyCommandWritesRaiseBusy : Obligations.OnlyCommandWritesRaiseBusy := by
  intro s t hs hidle hbusy
  obtain ⟨-, ev, rest, hp, hstep⟩ | ⟨hturn, -⟩ | ⟨-, -, hstep⟩ := step_cases s
  · rw [hstep, takeTurn_of_idle hidle] at hs
    obtain hst | hst | ⟨v, hev, rfl⟩ := runEvent_status hs
    · simp [hst, hidle] at hbusy
    · simp [hst, Status.reset] at hbusy
    · obtain ⟨hlegal, hreq⟩ := (check_eq_none_iff v s).1 (check_of_onCmdWrite_busy hidle hbusy)
      have hcmd : (advance (onCmdWrite v s)).regs.cmd = v := by simp
      rw [hcmd]
      refine ⟨(legalCommand_iff v).1 hlegal, hreq.imp (op_eq_bilevel_iff hlegal).2, rest, ?_⟩
      obtain rfl | rfl | ⟨w, rfl, hd⟩ := hev
      · exact .inl hp
      · exact .inr (.inl hp)
      · exact .inr (.inr ⟨w, hp, hd⟩)
  · have hrunning := hturn.1
    simp [hidle] at hrunning
  · rw [hstep] at hs
    cases hs
    simp [hidle] at hbusy

end Sys2Proof.Machine
end

section
/-! SUPPORT. The surface of an aborted command, and the reset that aborts it (R117 to R119). -/

namespace Sys2Proof.Machine

variable {s : State}

/-- After any number of steps of a command, the whole included, half of them are span bytes drawn; an odd one left the
surface and the source memory as they were (R78). -/
theorem engineRun_of_le (h : s.Inv) (hb : s.status.busy = true) (hno : NoOverlap s.platform s.engine)
    (hstart : Progress s 0 s) {n : Nat} (hn : n ≤ 2 * (spanBytes s.engine * s.engine.h)) :
    ∃ u v, Progress s (n / 2) v ∧ engineRun n s = .next u ∧ u.platform = v.platform ∧ u.surface = v.surface ∧
      u.source = v.source := by
  obtain hlt | rfl := Nat.lt_or_eq_of_le hn
  · obtain ⟨v, hv, hrun⟩ := engineRun_of_lt h hb hno hstart hlt
    refine ⟨_, v, hv, hrun, ?_⟩
    split
    · exact ⟨rfl, rfl, rfl⟩
    · exact ⟨rfl, rfl, rfl⟩
  · obtain ⟨v, hrun, hv⟩ := engineRun_progress h hb hno hstart le_rfl
    exact ⟨v, v, by rwa [Nat.mul_div_cancel_left _ (by decide)], hrun, rfl, rfl, rfl⟩

/-- Settles O38: a span byte is among the first `n / 2` ones exactly when its write is among the first `n` accesses. -/
theorem abortedCommandLeavesPrefix : Obligations.AbortedCommandLeavesPrefix := by
  intro s n h hb hno hrow hk hphase hn e index
  rw [Nat.mul_assoc] at hn
  obtain ⟨u, v, hv, hrun, hplatform, hsurface, hsource⟩ :=
    engineRun_of_le h hb hno (.start h hb hrow hk hphase) hn
  refine ⟨u, hrun, hsource.trans hv.keeps.source, fun i b hi hfirst hlast => ?_, fun idx hidx => ?_⟩
  · have hdrawn : memReadSurf v (index i b) = _ := hv.drawn i b ⟨hi, hfirst, hlast⟩
    have hwritten : spanOrder e i b < n / 2 ↔ 2 * (i * spanBytes e + (b - bfirst e) + 1) ≤ n := by
      rw [spanOrder]
      omega
    rw [memReadSurf_congr hplatform hsurface, hdrawn]
    exact if_congr hwritten rfl rfl
  · rw [memReadSurf_congr hplatform hsurface]
    exact hv.kept idx fun i b ⟨hi, hfirst, hlast⟩ => hidx i b hi hfirst hlast

/-- Settles O24: the host's event is the reset, which stands for the values of R33 and leaves the rest. -/
theorem resetEvent : Obligations.ResetEvent := by
  intro s rest hp hturn
  have hstatus : statusWord Status.reset = 0 := by decide
  exact ⟨_, step_of_hostTurn hturn hp, rfl, hstatus, rfl, rfl, rfl, rfl, rfl, rfl, rfl, rfl, rfl, by simp [hp]⟩

end Sys2Proof.Machine
end

section
/-! SUPPORT. A `wait` behind a running command: every step it takes, the engine's or the poll that finds `BUSY = 1`,
brings the completion nearer, whatever `schedule` is (R60, R80, R126; log 3, log 11). -/

namespace Sys2Proof.Machine

variable {s t : State} {rest : List HostEvent}

/-! ### The steps left -/

/-- The surface accesses that a running command has left (R78, R80). -/
def accessesLeft (e : Engine) : Nat :=
  2 * (spanBytes e * e.h - (e.row * spanBytes e + e.k)) - (if e.phase = .rd then 0 else 1)

/-- A running engine stands before the end of its command. -/
theorem Running.order_lt {p : Config.Platform} {e : Engine} (h : Running p e) :
    e.row * spanBytes e + e.k < spanBytes e * e.h := by
  have hspan : IsSpanByte e e.row (currentByte e) := ⟨h.row, Nat.le_add_right _ _, h.currentByte_le⟩
  have hlt := hspan.order_lt
  rwa [spanOrder, currentByte, Nat.add_sub_cancel_left] at hlt

/-- The `RD` half is one access fewer to come. -/
theorem accessesLeft_engineRead (h : Running s.platform s.engine) (hphase : s.engine.phase = .rd) :
    accessesLeft (engineRead s).engine < accessesLeft s.engine := by
  have horder := h.order_lt
  have hread : accessesLeft (engineRead s).engine =
      2 * (spanBytes s.engine * s.engine.h - (s.engine.row * spanBytes s.engine + s.engine.k)) - 1 := rfl
  rw [hread, accessesLeft, if_pos hphase]
  omega

@[simp] theorem nextCounters_spanBytes (e : Engine) : spanBytes (nextCounters e) = spanBytes e := by
  simp only [spanBytes, blast, bfirst, lastColumn, nextCounters_latched, nextCounters_w]

/-- The `WR` half is one access fewer to come. -/
theorem accessesLeft_engineWrite (h : Running s.platform s.engine) (hphase : s.engine.phase = .wr) :
    accessesLeft (engineWrite s).engine < accessesLeft s.engine := by
  have horder := h.order_lt
  rw [engineWrite_engine, accessesLeft, accessesLeft, nextCounters_spanBytes, nextCounters_order h.k,
    nextCounters_phase, nextCounters_h, hphase, if_pos rfl, if_neg nofun]
  omega

/-- The `WR` half completes the command or leaves `STATUS` as it is (R80). -/
theorem engineWrite_status_or (s : State) :
    (engineWrite s).status = s.status ∨ (engineWrite s).status = setComplete s.status := by
  rw [engineWrite_status]
  split
  · exact .inl rfl
  · exact .inr rfl

/-- A step of a running engine completes the command, or leaves `STATUS` as it is and one access fewer to come. -/
theorem engineStep_nearer (h : s.Inv) (hb : s.status.busy = true) (hno : NoOverlap s.platform s.engine) :
    ∃ t, engineStep s = .next t ∧ t.Inv ∧ EngineKeeps s t ∧
      ((t.status = s.status ∧ accessesLeft t.engine < accessesLeft s.engine) ∨ t.status = setComplete s.status) := by
  have hr := h.running hb
  cases hphase : s.engine.phase with
  | rd =>
    exact ⟨_, engineStep_rd h hb hno hphase, engineRead_keeps_inv h, engineRead_keeps s,
      .inl ⟨rfl, accessesLeft_engineRead hr hphase⟩⟩
  | wr =>
    exact ⟨_, engineStep_wr h hb hno hphase, engineWrite_keeps_inv h hb, engineWrite_keeps s,
      (engineWrite_status_or s).imp_left fun hst => ⟨hst, accessesLeft_engineWrite hr hphase⟩⟩

/-! ### The wait -/

/-- The access of `wait` (R60). -/
def waitEvent : HostEvent := .word (.stream 0x00008002#32)

theorem runEvent_wait (s : State) : runEvent waitEvent s = exec .wait s :=
  runEvent_of_decode (decodeOfEncode .wait rfl) s

/-- The read that finds `BUSY = 0` ends the wait. -/
theorem step_wait_of_idle (hb : s.status.busy = false) (hp : s.pending = waitEvent :: rest) :
    step s = .next { s with reads := s.reads ++ [statusWord s.status], pending := rest } := by
  rw [step_of_idle hb hp, runEvent_wait, (waitReadsStatus s).1 hb, hp, List.tail_cons]

/-- A `wait` at the head of the host's accesses, behind a running command that meets the premise of R123. -/
structure Waiting (rest : List HostEvent) (s : State) : Prop where
  inv : s.Inv
  busy : s.status.busy = true
  noOverlap : NoOverlap s.platform s.engine
  pending : s.pending = waitEvent :: rest

/-- What bounds the steps to completion: the engine's accesses, and the choices that may still name the host. -/
def stepsLeft (s : State) : Nat := accessesLeft s.engine + s.schedule.length

/-- The wait goes on while a step leaves `STATUS` as it is. -/
theorem Waiting.of_keeps (h : Waiting rest s) (hinv : t.Inv) (hst : t.status = s.status)
    (hkeeps : EngineKeeps (takeTurn s) t) : Waiting rest t where
  inv := hinv
  busy := hst ▸ h.busy
  noOverlap := by
    rw [hkeeps.platform, takeTurn_platform]
    exact h.noOverlap.congr (by simp [hkeeps.latched]) (by simp [hkeeps.w]) (by simp [hkeeps.h])
  pending := by rw [hkeeps.pending, takeTurn_pending, h.pending]

/-- The poll of a running command uses up a choice, an engine's step an access; neither changes more than the engine's
step does. -/
theorem Waiting.step_nearer (h : Waiting rest s) :
    ∃ t, step s = .next t ∧ EngineKeeps (takeTurn s) t ∧
      ((Waiting rest t ∧ t.status = s.status ∧ stepsLeft t < stepsLeft s) ∨ t.status = setComplete s.status) := by
  have hturn := takeTurn_of_busy h.busy (by simp [h.pending])
  have hinv := takeTurn_keeps_inv h.inv
  have hlen : (takeTurn s).schedule.length = s.schedule.length - 1 := by simp [hturn]
  have hbusy : (takeTurn s).status.busy = true := by simpa using h.busy
  obtain ⟨hhost, -⟩ | ⟨-, hstep⟩ | ⟨hidle, -⟩ := step_cases s
  · have hpos := List.length_pos_of_mem (List.mem_of_mem_head? (hhost.2 h.busy))
    refine ⟨takeTurn s, ?_, .refl _, .inl ⟨h.of_keeps hinv (by simp) (.refl _), by simp, ?_⟩⟩
    · rw [step_of_hostTurn hhost h.pending, runEvent_wait, (waitReadsStatus _).2 hbusy]
    · rw [stepsLeft, stepsLeft, takeTurn_engine]
      omega
  · obtain ⟨t, ht, htinv, hkeeps, hnear⟩ := engineStep_nearer hinv hbusy (by simpa using h.noOverlap)
    rw [takeTurn_status, takeTurn_engine] at hnear
    refine ⟨t, hstep.trans ht, hkeeps, hnear.imp_left fun ⟨hst, hless⟩ => ⟨h.of_keeps htinv hst hkeeps, hst, ?_⟩⟩
    rw [stepsLeft, stepsLeft, hkeeps.schedule]
    omega
  · rw [h.busy] at hidle
    cases hidle

/-- By induction on the steps left: the wait ends with the `STATUS` of the completed command. -/
theorem Waiting.ends (h : Waiting rest s) :
    ∃ n t, core.run n s = .next t ∧ t.pending = rest ∧ t.status = setComplete s.status ∧
      t.reads = s.reads ++ [statusWord t.status] ∧ t.regs = s.regs := by
  induction hm : stepsLeft s using Nat.strong_induction_on generalizing s with
  | _ m ih =>
    subst hm
    obtain ⟨u, hstep, hkeeps, hnear⟩ := h.step_nearer
    have hregs : u.regs = s.regs := by simp [hkeeps.regs]
    have hreads : u.reads = s.reads := by simp [hkeeps.reads]
    have hpending : u.pending = waitEvent :: rest := by simp [hkeeps.pending, h.pending]
    rw [← hregs, ← hreads]
    obtain ⟨hu, hst, hless⟩ | hst := hnear
    · obtain ⟨n, t, hrun, ht⟩ := ih _ hless hu rfl
      exact ⟨n + 1, t, (core_run_succ _ _ _ hstep).trans hrun, hst ▸ ht⟩
    · have hidle : u.status.busy = false := by rw [hst]; rfl
      have hend := step_wait_of_idle hidle hpending
      exact ⟨2, _, (core_run_succ _ _ _ hstep).trans (core_run_succ _ _ _ hend), rfl, hst, rfl, rfl⟩

/-- Settles O21: the steps left are finitely many in every schedule. -/
theorem waitEnds : Obligations.WaitEnds :=
  fun _ _ h hb hno hp => Waiting.ends ⟨h, hb, hno, hp⟩

end Sys2Proof.Machine
end

section
/-! SUPPORT. The bytes that the hazards guard, the command that draws over its own source, and the host's direct
accesses to both memories (R121 to R123). -/

namespace Sys2Proof.Machine

variable {s : State} {p : Config.Platform} {e : Engine} {idx a : Nat}

/-! ### The guarded bytes -/

/-- The guarded surface bytes in terms of the row and the byte of an index (R65, R121). -/
theorem isSpanIndex_iff (p : Config.Platform) (e : Engine) (idx : Nat) :
    isSpanIndex p e idx = true ↔
      idx % p.pageSize < 8000 ∧ idx < 4 * p.pageSize ∧
      e.latched.y.toNat ≤ rowOfIndex p.pageSize idx ∧ rowOfIndex p.pageSize idx < e.latched.y.toNat + e.h ∧
      bfirst e ≤ byteOfIndex p.pageSize idx ∧ byteOfIndex p.pageSize idx ≤ blast e := by
  simp only [isSpanIndex, Bool.and_eq_true, decide_eq_true_eq, and_assoc]
  exact Iff.rfl

/-- The index of a pixel's byte gives back its row and its byte (R65). -/
theorem rowOfIndex_byteOfIndex_xlate {pageSize px py : Nat} (hp : 8000 ≤ pageSize) (hx : px ≤ 319) (hy : py ≤ 199) :
    (xlate pageSize px py).idx < 4 * pageSize ∧ (xlate pageSize px py).idx % pageSize < 8000 ∧
    rowOfIndex pageSize (xlate pageSize px py).idx = py ∧
    byteOfIndex pageSize (xlate pageSize px py).idx = px / 2 := by
  have hle := xlate_idx_le (pageSize := pageSize) hx hy
  have hoff := bankOffset_le hx hy
  have hsize : (xlate pageSize px py).idx < 4 * pageSize := by omega
  have hmod : (xlate pageSize px py).idx % pageSize < 8000 := by
    rw [xlate_idx_bankOffset, Nat.mul_add_mod', Nat.mod_eq_of_lt (by omega)]
    omega
  have hbyte := byteOfIndex_le pageSize (xlate pageSize px py).idx
  have hback := xlate_idx_rowOfIndex (px := 2 * byteOfIndex pageSize (xlate pageSize px py).idx) hsize (by omega)
  obtain ⟨hrow, hcol⟩ := xlate_idx_injective hp (by omega) (rowOfIndex_le hsize hmod) hx hy hback
  exact ⟨hsize, hmod, hrow, by omega⟩

/-- Settles O44: the test asks whether the row and the byte of the index are in the spans, and a span byte is its own
row and byte. -/
theorem spanIndexIffSpanByte : Obligations.SpanIndexIffSpanByte := by
  intro p e idx hp hr
  rw [isSpanIndex_iff]
  constructor
  · rintro ⟨-, hsize, htop, hbottom, hfirst, hlast⟩
    refine ⟨rowOfIndex p.pageSize idx - e.latched.y.toNat, byteOfIndex p.pageSize idx, by omega, hfirst, hlast, ?_⟩
    rw [Nat.add_sub_of_le htop, xlate_idx_rowOfIndex hsize (by omega)]
  · rintro ⟨i, b, hi, hfirst, hlast, rfl⟩
    obtain ⟨hx, hy⟩ := IsSpanByte.onScreen ⟨hi, hfirst, hlast⟩ hr
    obtain ⟨hsize, hmod, hrow, hbyte⟩ := rowOfIndex_byteOfIndex_xlate hp.1 hx hy
    rw [hrow, hbyte]
    omega

/-- Settles O45: the distance from `L.src` around the space is `r * WB + j`, both ways. -/
theorem sourceByteIffInBitmap : Obligations.SourceByteIffInBitmap := by
  intro p l a hsrc
  refine ⟨sourceAddr_of_isSourceByte hsrc, ?_⟩
  rintro ⟨r, j, hr, hj, rfl⟩
  exact isSourceByte_sourceAddr hsrc hr hj

/-- Settles O46: the guarded surface bytes are the aliases of the guarded source bytes. -/
theorem sourceIndexIffAliasedBitmap : Obligations.SourceIndexIffAliasedBitmap := by
  intro p l idx hsrc
  rw [isSourceIndex_iff]
  constructor
  · rintro ⟨a, ha, halias⟩
    obtain ⟨r, j, hr, hj, rfl⟩ := sourceAddr_of_isSourceByte hsrc ha
    exact ⟨r, j, hr, hj, halias⟩
  · rintro ⟨r, j, hr, hj, halias⟩
    exact ⟨_, isSourceByte_sourceAddr hsrc hr hj, halias⟩

/-! ### A command that draws over its own source -/

/-- The engine's test fails only under the premise of R123. -/
theorem noOverlap_of_overlaps_eq_false (hsrc : e.latched.src.toNat < sourceSize p) (h : overlaps p e = false) :
    NoOverlap p e := by
  intro r j i b hr hj hi hfirst hlast halias
  have hnb : spanBytes e = blast e - bfirst e + 1 := rfl
  have hover : overlaps p e = true :=
    (overlaps_iff p e).2 ⟨i, b, _, hi, hfirst, by omega, isSourceByte_sourceAddr hsrc hr hj, halias⟩
  rw [h] at hover
  cases hover

/-- A running engine whose source overlaps its spans stops (R123, log 10). -/
theorem engineStep_of_overlaps (hb : s.status.busy = true) (hr : rasterizerSelected s.engine = true)
    (ho : overlaps s.platform s.engine = true) : engineStep s = .fault .aliasHazard := by
  simp [engineStep, hb, hr, ho]

/-- Settles O47: the premise fails, so the engine's test does not. -/
theorem overlappingCommandStops : Obligations.OverlappingCommandStops := by
  intro s h hb hover
  have hr := h.running hb
  have htest : overlaps s.platform s.engine = true := by
    rw [← Bool.not_eq_false]
    exact fun hclear => hover (noOverlap_of_overlaps_eq_false hr.src hclear)
  exact engineStep_of_overlaps hb hr.rasterizer htest

/-! ### Through a window -/

/-- A host read of a source byte in a window is the host's read of the surface byte. -/
theorem hostReadSource_of_alias (hp : s.platform.Legal) (h : aliasIndex s.platform a = some idx) :
    hostReadSource a s = hostReadSurface idx s := by
  have hrange := (aliasIndex_range hp h).1
  simp [hostReadSource, h, hrange]

/-- A host write of a source byte in a window is the host's write of the surface byte. -/
theorem hostWriteSource_of_alias (hp : s.platform.Legal) (h : aliasIndex s.platform a = some idx) (v : Byte) :
    hostWriteSource a v s = hostWriteSurface idx v s := by
  have hrange := (aliasIndex_range hp h).1
  simp [hostWriteSource, h, hrange]

/-- The state in which the host's event `ev` runs: a choice is used up, if both agents could move (log 3). -/
def inHostTurn (s : State) (rest : List HostEvent) (ev : HostEvent) : State :=
  { s with pending := ev :: rest, schedule := if s.status.busy then s.schedule.tail else s.schedule }

theorem step_withPending (hhead : s.status.busy = true → s.schedule.head? = some .host) (rest : List HostEvent)
    (ev : HostEvent) : step { s with pending := ev :: rest } = runEvent ev (inHostTurn s rest ev) := by
  have hne : ({ s with pending := ev :: rest } : State).pending ≠ [] := List.cons_ne_nil _ _
  rw [step_of_hostTurn ⟨hne, hhead⟩ rfl, inHostTurn]
  cases hb : s.status.busy with
  | false => rw [takeTurn_of_idle (by exact hb), if_neg nofun]
  | true => rw [takeTurn_of_busy (by exact hb) hne, if_pos rfl]

/-- Settles O48: through a window the source access is the surface access; which of the two stood in the queue is gone
with it. -/
theorem aliasedAccessIsSurfaceAccess : Obligations.AliasedAccessIsSurfaceAccess := by
  intro s a idx v rest h halias hhead
  have hstep := step_withPending hhead rest
  refine ⟨(aliasIndex_range h.platform halias).2, memReadSrc_of_alias halias, ?_, ?_⟩
  · calc step { s with pending := .sourceRead a :: rest }
      _ = hostReadSource a (inHostTurn s rest (.sourceRead a)) := hstep _
      _ = hostReadSurface idx (inHostTurn s rest (.sourceRead a)) :=
        hostReadSource_of_alias (s := inHostTurn s rest _) h.platform halias
      _ = hostReadSurface idx (inHostTurn s rest (.surfaceRead idx)) := rfl
      _ = step { s with pending := .surfaceRead idx :: rest } := (hstep (.surfaceRead idx)).symm
  · calc step { s with pending := .sourceWrite a v :: rest }
      _ = hostWriteSource a v (inHostTurn s rest (.sourceWrite a v)) := hstep _
      _ = hostWriteSurface idx v (inHostTurn s rest (.sourceWrite a v)) :=
        hostWriteSource_of_alias (s := inHostTurn s rest _) h.platform halias v
      _ = hostWriteSurface idx v (inHostTurn s rest (.surfaceWrite idx v)) := rfl
      _ = step { s with pending := .surfaceWrite idx v :: rest } := (hstep (.surfaceWrite idx v)).symm

/-! ### The host's direct accesses -/

theorem memReadSurf_advance (s : State) (idx : Nat) : memReadSurf (advance s) idx = memReadSurf s idx := rfl

theorem memReadSrc_advance (s : State) (a : Nat) : memReadSrc (advance s) a = memReadSrc s a := rfl

@[simp] theorem memReadSrc_takeTurn (s : State) (a : Nat) : memReadSrc (takeTurn s) a = memReadSrc s a :=
  memReadSrc_congr (takeTurn_platform s) (takeTurn_source s) fun idx _ => memReadSurf_takeTurn s idx

/-- The surface hazard is over the span bytes of the running command (R121). -/
theorem spanHazard_iff (h : s.Inv) (idx : Nat) :
    (s.status.busy && isSpanIndex s.platform s.engine idx) = true ↔
      s.status.busy = true ∧ ∃ i b, i < s.engine.h ∧ bfirst s.engine ≤ b ∧ b ≤ blast s.engine ∧
        idx = (xlate s.platform.pageSize (2 * b) (s.engine.latched.y.toNat + i)).idx := by
  rw [Bool.and_eq_true]
  exact and_congr_right fun hb => spanIndexIffSpanByte _ _ _ h.platform (h.running hb)

/-- The source hazard on the surface is over the aliased bitmap of the running command (R122, R123). -/
theorem sourceIndexHazard_iff (h : s.Inv) (idx : Nat) :
    (s.status.busy && isSourceIndex s.platform s.engine.latched idx) = true ↔
      s.status.busy = true ∧ ∃ r j, r < s.engine.latched.hb.toNat ∧ j < s.engine.latched.wb.toNat ∧
        aliasIndex s.platform (sourceAddr s.platform s.engine.latched r j) = some idx := by
  rw [Bool.and_eq_true]
  exact and_congr_right fun hb => sourceIndexIffAliasedBitmap _ _ _ (h.running hb).src

/-- The source hazard is over the bitmap of the running command (R122). -/
theorem sourceHazard_iff (h : s.Inv) (a : Nat) :
    (s.status.busy && isSourceByte s.platform s.engine.latched a) = true ↔
      s.status.busy = true ∧ ∃ r j, r < s.engine.latched.hb.toNat ∧ j < s.engine.latched.wb.toNat ∧
        a = sourceAddr s.platform s.engine.latched r j := by
  rw [Bool.and_eq_true]
  exact and_congr_right fun hb => sourceByteIffInBitmap _ _ _ (h.running hb).src

/-- Settles O49: the host's event is the access, and its tests are the two hazards. -/
theorem hostSurfaceAccess : Obligations.HostSurfaceAccess := by
  intro s idx v rest h hturn hidx isSpan isSource
  have hi : ¬ idx ≥ surfaceSize s.platform := Nat.not_le.2 hidx
  have hspan : (s.status.busy && isSpanIndex s.platform s.engine idx) = true ↔ isSpan := spanHazard_iff h idx
  have hsource : (s.status.busy && isSourceIndex s.platform s.engine.latched idx) = true ↔ isSource :=
    sourceIndexHazard_iff h idx
  refine ⟨fun hp => ?_, fun hp => ?_⟩
  · rw [step_of_hostTurn hturn hp, runEvent, hostReadSurface, takeTurn_platform, takeTurn_status, takeTurn_engine,
      if_neg hi]
    refine ⟨fun hg => if_pos (hspan.2 hg), fun hg => ⟨_, if_neg (mt hspan.1 hg), ?_⟩⟩
    simp [hp]
  · rw [step_of_hostTurn hturn hp, runEvent, hostWriteSurface, takeTurn_platform, takeTurn_status, takeTurn_engine,
      if_neg hi]
    refine ⟨fun hg => if_pos (hspan.2 hg), fun hg hsrc => ?_, fun hg hsrc => ?_⟩
    · rw [if_neg (mt hspan.1 hg), if_pos (hsource.2 hsrc)]
    · rw [if_neg (mt hspan.1 hg), if_neg (mt hsource.1 hsrc)]
      refine ⟨_, rfl, fun a => ?_, by simp [hp]⟩
      rw [memReadSurf_advance, memReadSurf_memWriteSurf (takeTurn_keeps_inv h).surfaceWf, memReadSurf_takeTurn]
      exact if_congr eq_comm rfl rfl

/-- Settles O50: the host's event is the access, and the test of a write is the hazard. -/
theorem hostSourceAccess : Obligations.HostSourceAccess := by
  intro s a v rest h hturn ha halias guarded
  have hi : ¬ a ≥ sourceSize s.platform := Nat.not_le.2 ha
  have hguard : (s.status.busy && isSourceByte s.platform s.engine.latched a) = true ↔ guarded := sourceHazard_iff h a
  refine ⟨fun hp => ?_, fun hp => ?_⟩
  · rw [step_of_hostTurn hturn hp, runEvent, hostReadSource, takeTurn_platform, if_neg hi, halias]
    exact ⟨_, rfl, by simp [hp]⟩
  · rw [step_of_hostTurn hturn hp, runEvent, hostWriteSource, takeTurn_platform, takeTurn_status, takeTurn_engine,
      if_neg hi, halias]
    refine ⟨fun hg => if_pos (hguard.2 hg), fun hg => ⟨_, if_neg (mt hguard.1 hg), fun x => ?_, ?_⟩⟩
    · rw [memReadSrc_advance, memReadSrc_hostWriteSrc (takeTurn_keeps_inv h).sourceWf (by simpa using halias),
        memReadSrc_takeTurn]
      exact if_congr eq_comm rfl rfl
    · simp [hostWriteSrc_of_none (s := takeTurn s) (by simpa using halias), hp]

end Sys2Proof.Machine
end
